-- ==== Sys2Proof/Word.lean ====
section
/-! DEFINITION. The machine word (spec/00_scope.md R7, R14) and the byte of the views outside the core (R56). -/

namespace Sys2Proof

/-- R7: an unsigned 32-bit memory cell, the machine's only addressable unit. -/
abbrev Word := BitVec 32

/-- R56: one byte of the byte view (binary image, framebuffer bytes); no instruction uses it. -/
abbrev Byte := BitVec 8

end Sys2Proof
end

