-- ==== Sys2Proof/Config.lean ====
section
/-! DEFINITION. What an implementation fixes and the spec leaves open: constants with NO body for the OPEN parameters
(spec/00_scope.md R11, R12), the two default values the spec gives (R6, R8), and the form of the framebuffer's placement
(R10), whose value every state holds. -/

namespace Sys2Proof

/-- R11: the order of the four bytes of a word in the byte view. -/
inductive ByteOrder where
  | little
  | big
  deriving DecidableEq, Repr, Inhabited

/-- R10: SCREEN_BASE, W and H, the placement and size of the framebuffer `[base, base + width * height)`. -/
structure FrameBuffer where
  base : Nat
  width : Nat
  height : Nat
  deriving DecidableEq, Repr, Inhabited

/-- R11, D19: OPEN. Log 3. -/
opaque Config.byteOrder : ByteOrder

/-- R12, D20: OPEN. Log 3. -/
opaque Config.savePatchLive : Bool

/-- R6: the default of N, 2^21 words. -/
def Config.defaultMemSize : Nat := 2097152

/-- R8: the default of Q_CAP. -/
def Config.defaultQueueCap : Nat := 5

end Sys2Proof
end

