-- ==== Sys2Proof/Syntax.lean ====
section
/-! DEFINITION. The 17 instructions of the opcode map (spec/30_encoding.md R75), one constructor per row of
spec/opcode_table.json, in the table's order. -/

namespace Sys2Proof

/-- An instruction with the operand words it uses, each a word address (R73). An operand word that R75 marks with a dash
is ignored whatever it holds (R76), so it is no argument of the constructor (log 12). -/
inductive Instr where
  | halt
  | jmp (a : Word)
  | jif (a b : Word)
  | savepc (a : Word)
  | mov (a b : Word)
  | load (a b : Word)
  | store (a b : Word)
  | add (a b c : Word)
  | sub (a b c : Word)
  | mul (a b c : Word)
  | div (a b c : Word)
  | mod (a b c : Word)
  | lt (a b c : Word)
  | nand (a b : Word)
  | draw
  | read (a : Word)
  | print (a : Word)
  deriving DecidableEq, Repr

end Sys2Proof
end

