-- ==== Sys2Proof/WellFormed.lean ====
section
/-! DEFINITION. What the spec asks of an instruction, of the parameters and of an image before they have a meaning.

An instruction has no ill-formed term: every 32-bit value of every used operand word may stand (spec/30_encoding.md R71,
R73), and an address at or beyond N is a fault of the run (R51), not of the form. -/

namespace Sys2Proof

/-- R75: the number of an instruction in the opcode map. -/
def Instr.opcode : Instr → Nat
  | .halt => 0
  | .jmp _ => 1
  | .jif _ _ => 2
  | .savepc _ => 3
  | .mov _ _ => 4
  | .load _ _ => 5
  | .store _ _ => 6
  | .add _ _ _ => 7
  | .sub _ _ _ => 8
  | .mul _ _ _ => 9
  | .div _ _ _ => 10
  | .mod _ _ _ => 11
  | .lt _ _ _ => 12
  | .nand _ _ => 13
  | .draw => 14
  | .read _ => 15
  | .print _ => 16

/-- R72: an instruction's opcode is one of 0 to 16. -/
def Instr.wellFormed (i : Instr) : Bool := decide (i.opcode ≤ 16)

/-- R10: the framebuffer lies inside Memory, SCREEN_BASE + W*H ≤ N. -/
def FrameBuffer.fits (f : FrameBuffer) (memSize : Nat) : Bool :=
  decide (f.base + f.width * f.height ≤ memSize)

/-- R6, R8, R10: 4 ≤ N ≤ 2^32, Q_CAP ≥ 1 and SCREEN_BASE + W*H ≤ N. -/
def paramsOk (memSize queueCap : Nat) (frame : FrameBuffer) : Bool :=
  decide (4 ≤ memSize) && decide (memSize ≤ 4294967296) && decide (1 ≤ queueCap) && frame.fits memSize

/-- R9: an image is at most N words long. -/
def imageFits (memSize : Nat) (image : List Word) : Bool := decide (image.length ≤ memSize)

/-- R211: the integers of a text image each fit a word, and there are at most N of them. -/
def textImageOk (memSize : Nat) (values : List Nat) : Bool :=
  decide (values.length ≤ memSize) && values.all (fun v => decide (v < 4294967296))

/-- R212: a binary image's byte count is a multiple of 4 and at most 4N. -/
def binaryImageOk (memSize : Nat) (bytes : List Byte) : Bool :=
  decide (bytes.length % 4 = 0) && decide (bytes.length ≤ 4 * memSize)

end Sys2Proof
end

