-- ==== Sys2Proof/Decode.lean ====
section
/-! DEFINITION. Decoding and encoding of the one format W4 (spec/30_encoding.md R70 to R78): four 32-bit words
OP, A, B, C, the opcode being the whole first word. -/

namespace Sys2Proof

/-- Why four words are no instruction. -/
inductive DecodeError where
  /-- R77: the opcode word is 17 or more. -/
  | invalidOpcode (op : Word)
  /-- R70: fewer than four words. -/
  | truncated
  deriving DecidableEq, Repr

/-- R70: the four words of an instruction, in the order of their addresses. -/
structure InstrWords where
  op : Word
  a : Word
  b : Word
  c : Word
  deriving DecidableEq, Repr

/-- R72, R75: the full 32-bit opcode word selects the instruction. The words that R75 marks with a dash are ignored (R76). -/
def decode (w : InstrWords) : Except DecodeError Instr :=
  match w.op.toNat with
  | 0 => .ok .halt
  | 1 => .ok (.jmp w.a)
  | 2 => .ok (.jif w.a w.b)
  | 3 => .ok (.savepc w.a)
  | 4 => .ok (.mov w.a w.b)
  | 5 => .ok (.load w.a w.b)
  | 6 => .ok (.store w.a w.b)
  | 7 => .ok (.add w.a w.b w.c)
  | 8 => .ok (.sub w.a w.b w.c)
  | 9 => .ok (.mul w.a w.b w.c)
  | 10 => .ok (.div w.a w.b w.c)
  | 11 => .ok (.mod w.a w.b w.c)
  | 12 => .ok (.lt w.a w.b w.c)
  | 13 => .ok (.nand w.a w.b)
  | 14 => .ok .draw
  | 15 => .ok (.read w.a)
  | 16 => .ok (.print w.a)
  | _ => .error (.invalidOpcode w.op)

/-- Decoding from a sequence of words: the instruction and the words after it (R70). -/
def decodeWords : List Word → Except DecodeError (Instr × List Word)
  | op :: a :: b :: c :: rest => (decode ⟨op, a, b, c⟩).map (fun i => (i, rest))
  | _ => .error .truncated

/-- R71, R79: the four words of an instruction; an operand word it ignores is 0 (log 12). -/
def encode : Instr → InstrWords
  | .halt => ⟨0, 0, 0, 0⟩
  | .jmp a => ⟨1, a, 0, 0⟩
  | .jif a b => ⟨2, a, b, 0⟩
  | .savepc a => ⟨3, a, 0, 0⟩
  | .mov a b => ⟨4, a, b, 0⟩
  | .load a b => ⟨5, a, b, 0⟩
  | .store a b => ⟨6, a, b, 0⟩
  | .add a b c => ⟨7, a, b, c⟩
  | .sub a b c => ⟨8, a, b, c⟩
  | .mul a b c => ⟨9, a, b, c⟩
  | .div a b c => ⟨10, a, b, c⟩
  | .mod a b c => ⟨11, a, b, c⟩
  | .lt a b c => ⟨12, a, b, c⟩
  | .nand a b => ⟨13, a, b, 0⟩
  | .draw => ⟨14, 0, 0, 0⟩
  | .read a => ⟨15, a, 0, 0⟩
  | .print a => ⟨16, a, 0, 0⟩

/-- The four words as one sequence, lowest address first. -/
def InstrWords.toList (w : InstrWords) : List Word := [w.op, w.a, w.b, w.c]

/-- The instruction whose bits are the number `w`, bit 0 the least significant bit of the first word and each later word
counting on from the one before. -/
def wordsOfBits (w : Nat) : InstrWords :=
  ⟨BitVec.ofNat 32 w, BitVec.ofNat 32 (w / 4294967296), BitVec.ofNat 32 (w / 18446744073709551616),
    BitVec.ofNat 32 (w / 79228162514264337593543950336)⟩

/-- The bits of four words as one number: the other way round from `wordsOfBits`. -/
def bitsOfWords (w : InstrWords) : Nat :=
  w.op.toNat + 4294967296 * (w.a.toNat + 4294967296 * (w.b.toNat + 4294967296 * w.c.toNat))

/-- The first `nbits` bits of `w`; every bit above them is 0. -/
def tableBits (nbits w : Nat) : Nat := w % 2 ^ nbits

/-- What the decoder reads from an instruction whose bits, numbered as spec/opcode_table.json numbers them, are `w`. -/
def decodeTableWord (nbits w : Nat) : Option Instr :=
  (decode (wordsOfBits (tableBits nbits w))).toOption

end Sys2Proof
end

