-- ==== Sys2Proof/Machine/State.lean ====
section
/-! DEFINITION. The state of the block (spec/10_state.md R20 to R30, spec/45_execution_controller.md R162), its
parameters (spec/00_scope.md R6, R8, R9, R10), the moves of the host (R161, R211 to R213) and the reasons a step can stop. -/

namespace Sys2Proof.Machine

/-- R20: Memory as (address, word) cells, rising in address, no cell holding 0: an address that is not listed holds 0, as
the Init action leaves it (R261). Log 1: the unit is the word, the only one the spec knows (R7, R50). -/
abbrev Memory := List (Nat × Word)

/-- R25: StepBudget, a natural number or infinity. -/
inductive Budget where
  | finite (n : Nat)
  | unlimited
  deriving DecidableEq, Repr

/-- R26: the phase of Running; `yielded` is the pending continuation (R30). -/
inductive Phase where
  | active
  | yielded
  deriving DecidableEq, Repr

/-- R26: how a blocked READ resumes: `one` is the source's Blocked₁, `many` its Blocked_N. -/
inductive Resume where
  | one
  | many
  deriving DecidableEq, Repr

/-- R26: the control mode. -/
inductive Mode where
  | init
  | running (phase : Phase)
  | paused
  | blocked (resume : Resume) (addr : Word)
  | halted
  deriving DecidableEq, Repr

/-- R29, R230: why the machine halted; `none` is the reset value. -/
inductive Cause where
  | none
  | haltInstr
  | invalidOpcode
  | divideByZero
  | addressError
  | misalignedTarget
  deriving DecidableEq, Repr

/-- R29: the halt diagnostic. -/
structure Diag where
  cause : Cause
  pc : Word
  info : Word
  deriving DecidableEq, Repr

/-- R23: the instruction latches. -/
structure Latches where
  op : Word
  a : Word
  b : Word
  c : Word
  deriving DecidableEq, Repr

/-- R162: an output of the block. -/
inductive Output where
  | draw
  | print (v : Word)
  | halted (d : Diag)
  | paused
  | blocked (addr : Word)
  deriving DecidableEq, Repr

/-- R161: an input of the block; and what the image loaders and the saver do to it between transitions
(R211, R212, R213). -/
inductive HostInput where
  | start
  | step
  | reload
  | key (k : Word)
  | tick
  | loadText (values : List Nat)
  | loadBinary (bytes : List Byte)
  | save
  deriving DecidableEq, Repr

/-- R160: one move of a run: the block's own turn (its internal transition), or a host input. Log 5. -/
inductive Move where
  | block
  | host (input : HostInput)
  deriving DecidableEq, Repr

/-- All the spec gives the machine, its parameters, and the moves still to come. -/
structure State where
  /-- R20. -/
  mem : Memory
  /-- R22. -/
  pc : Word
  /-- R23. -/
  latches : Latches
  /-- R24. -/
  stepCount : Nat
  /-- R25. -/
  stepBudget : Budget
  /-- R26. -/
  mode : Mode
  /-- R27: oldest first. -/
  queue : List Word
  /-- R29. -/
  diag : Diag
  /-- R162: oldest first. -/
  trace : List Output
  /-- R6: N, the number of words of Memory. Log 2. -/
  memSize : Nat
  /-- R8: Q_CAP. Log 2. -/
  queueCap : Nat
  /-- R9: IMAGE. Log 4. -/
  image : List Word
  /-- R10: SCREEN_BASE, W and H. Log 16. -/
  frameBuffer : FrameBuffer
  /-- The MODEL's own field: the moves to come, next first (log 5); empty means a quiet host. -/
  schedule : List Move
  deriving DecidableEq, Repr

/-- R262: the state the Init action leaves, with N and Q_CAP at their defaults (R6, R8), no image (log 4), an empty
framebuffer (log 16) and no move scheduled (log 5). -/
def State.reset : State where
  mem := []
  pc := 0
  latches := ⟨0, 0, 0, 0⟩
  stepCount := 0
  stepBudget := .finite 0
  mode := .init
  queue := []
  diag := ⟨.none, 0, 0⟩
  trace := []
  memSize := Config.defaultMemSize
  queueCap := Config.defaultQueueCap
  image := []
  frameBuffer := ⟨0, 0, 0⟩
  schedule := []

/-- Why a step stops with a fault. The faults of R230 are NOT here: the machine takes them, and its next state is
Halted (R233). -/
inductive Fault where
  /-- Raised by `step` alone, in Init, Running(Yielded), Paused, Blocked or Halted with no move scheduled: no internal
  transition is enabled and the block waits for the host (R184, I17: stuck). Safe: the model stops where the block
  would only wait. Log 6. -/
  | waitingForHost
  deriving DecidableEq, Repr

/-- Why a step is refused. -/
inductive Refusal where
  /-- Raised by an arm of `exec` whose instruction has no meaning yet; no arm does. Safe. -/
  | notModelled (mnemonic : String)
  deriving DecidableEq, Repr

end Sys2Proof.Machine
end

