-- ==== Sys2Proof/Machine/Ops.lean ====
section
/-! DEFINITION. The operations every meaning shares: the words of Memory and the address check (spec/20_memory.md R51,
R52), the queue (spec/45_execution_controller.md R177), fault entry (spec/60_exceptions.md R233) and, beside it, the Init
action that leaves Halted (spec/70_reset_and_hazards.md R261), and the retirement of an instruction with the
controller's reaction to its event (spec/40_instruction_cycle.md R95 to R97, spec/45 R164 to R170). -/

namespace Sys2Proof.Machine

/-! ### Memory as data -/

/-- The word at an address; an address that is not listed holds 0 (R261). -/
def Memory.read : Memory → Nat → Word
  | [], _ => 0
  | (k, w) :: m, a => if k = a then w else Memory.read m a

/-- Memory with nothing listed at `a`. -/
def Memory.erase : Memory → Nat → Memory
  | [], _ => []
  | (k, w) :: m, a => if k = a then Memory.erase m a else (k, w) :: Memory.erase m a

/-- The cell `(a, v)` put before the first cell with a higher address. -/
def Memory.insert : Memory → Nat → Word → Memory
  | [], a, v => [(a, v)]
  | (k, w) :: m, a, v => if a < k then (a, v) :: (k, w) :: m else (k, w) :: Memory.insert m a v

/-- Memory with `v` at `a`: a 0 is not listed. -/
def Memory.write (m : Memory) (a : Nat) (v : Word) : Memory :=
  if v = 0 then m.erase a else (m.erase a).insert a v

/-- Every cell of the list lies above `lo`, in rising order, and holds no 0. -/
def Memory.risingFrom : Nat → Memory → Bool
  | _, [] => true
  | lo, (k, w) :: m => decide (lo ≤ k) && decide (w ≠ 0) && Memory.risingFrom (k + 1) m

/-- The canonical form: addresses strictly rising, no cell equal to what an unlisted address holds. -/
def Memory.wf (m : Memory) : Bool := Memory.risingFrom 0 m

/-- Every listed address is one of the `n` words that exist (R20). -/
def Memory.within (m : Memory) (n : Nat) : Bool := m.all (fun cell => decide (cell.1 < n))

/-- Cleared Memory with `ws` placed from address `base` on (R261). -/
def Memory.placeAt : Nat → List Word → Memory
  | _, [] => []
  | base, w :: ws => if w = 0 then Memory.placeAt (base + 1) ws else (base, w) :: Memory.placeAt (base + 1) ws

/-- The word of Memory at `x`, as the host may read it between transitions (R66, R162). -/
def State.wordAt (s : State) (x : Nat) : Word := s.mem.read x

/-! ### Raising -/

/-- R230: the causes an executor step can raise. -/
inductive FaultCause where
  | invalidOpcode
  | divideByZero
  | addressError
  | misalignedTarget
  deriving DecidableEq, Repr

/-- The fault's cause as Diag records it. -/
def FaultCause.toCause : FaultCause → Cause
  | .invalidOpcode => .invalidOpcode
  | .divideByZero => .divideByZero
  | .addressError => .addressError
  | .misalignedTarget => .misalignedTarget

/-- R17, R90: a raised fault and its info word (R232). -/
structure Raised where
  cause : FaultCause
  info : Word
  deriving DecidableEq, Repr

/-- R16: the range test of an access. -/
def checkAddr (s : State) (a : Word) : Except Raised Unit :=
  if s.memSize ≤ a.toNat then .error ⟨.addressError, a⟩ else .ok ()

/-- R51: read one word. -/
def memRead (s : State) (a : Word) : Except Raised Word :=
  if s.memSize ≤ a.toNat then .error ⟨.addressError, a⟩ else .ok (s.wordAt a.toNat)

/-- R52: write one word. -/
def memWrite (s : State) (a v : Word) : Except Raised State :=
  if s.memSize ≤ a.toNat then .error ⟨.addressError, a⟩ else .ok { s with mem := s.mem.write a.toNat v }

/-! ### The output trace and the queue -/

/-- R162: append one output. -/
def State.emit (s : State) (o : Output) : State := { s with trace := s.trace ++ [o] }

/-- R177: append a key code, dropping the oldest when the queue is full. -/
def queuePush (cap : Nat) (queue : List Word) (k : Word) : List Word :=
  (if queue.length = cap then queue.tail else queue) ++ [k]

/-! ### Fault entry and the Init action -/

/-- R164, R233: latch the diagnostic, enter Halted, output it; nothing else changes. -/
def State.haltWith (s : State) (cause : Cause) (info : Word) : State :=
  State.emit { s with diag := ⟨cause, s.pc, info⟩, mode := .halted } (.halted ⟨cause, s.pc, info⟩)

/-- R164, R233: taking a fault, the one operation for every cause. -/
def State.takeFault (s : State) (r : Raised) : State := s.haltWith r.cause.toCause r.info

/-- R261, R262: the Init action. The parameters keep their values (R264); the trace is emptied (R262, log 7). -/
def State.initAction (s : State) : State :=
  { s with
    mem := Memory.placeAt 0 s.image
    pc := 0
    latches := ⟨0, 0, 0, 0⟩
    stepCount := 0
    stepBudget := .finite 0
    mode := .init
    queue := []
    diag := ⟨.none, 0, 0⟩
    trace := [] }

/-! ### Retirement -/

/-- R90: the event of a retired instruction. -/
inductive Event where
  | none
  | draw
  | keyboard (a : Word)
  | print (v : Word)
  | halt
  deriving DecidableEq, Repr

/-- R93: what an instruction's rule computes: at most one write, the next PC and the event. -/
structure Effect where
  write : Option (Word × Word)
  nextPC : Word
  event : Event
  deriving DecidableEq, Repr

/-- R94: PC + 4, wrapping. -/
def State.pcPlus4 (s : State) : Word := s.pc + 4

/-- R97: the pending write, which may raise. -/
def State.commitWrite (s : State) : Option (Word × Word) → Except Raised State
  | .none => .ok s
  | .some (a, v) => memWrite s a v

/-- R95: PC and StepCount of a retired instruction. -/
def State.retire (s : State) (nextPC : Word) : State := { s with pc := nextPC, stepCount := s.stepCount + 1 }

/-- R169: how a READ that blocks will resume. -/
def Budget.resume : Budget → Resume
  | .finite _ => .one
  | .unlimited => .many

/-- R168, R169: the controller's reaction to a READ of address `a`. -/
def State.reactKeyboard (s : State) (a : Word) : State :=
  match s.queue with
  | k :: rest => { s with queue := rest, mem := s.mem.write a.toNat k }
  | [] => State.emit { s with mode := .blocked s.stepBudget.resume a } (.blocked a)

/-- R165 to R170: the controller's reaction to the event of a retired instruction. -/
def State.react (s : State) : Event → State
  | .none => s
  | .draw => State.emit { s with mode := .running .yielded } .draw
  | .print v => s.emit (.print v)
  | .keyboard a => s.reactKeyboard a
  | .halt => s.haltWith .haltInstr 0

/-- R97, R164: the end of an executor step: commit and react, or take the fault with nothing committed (R96). -/
def State.complete (s : State) (r : Except Raised Effect) : Host.Outcome State Fault Refusal :=
  match r with
  | .error x => .next (s.takeFault x)
  | .ok e =>
    match s.commitWrite e.write with
    | .error x => .next (s.takeFault x)
    | .ok t => .next ((t.retire e.nextPC).react e.event)

end Sys2Proof.Machine
end

