-- ==== Sys2Proof/Machine/HostInterface.lean ====
section
/-! DEFINITION. What the external collaborators see of the block and do to it (spec/46_host_interface.md R211 to R214):
the byte view (spec/20_memory.md R56), the image loads, the save with its resume patch, the framebuffer (R54) and the
status view (spec/10_state.md R32). -/

namespace Sys2Proof.Machine

/-! ### The byte view -/

/-- R56: the four bytes of a word, lowest byte address first. -/
def bytesOfWord (o : ByteOrder) (w : Word) : List Byte :=
  match o with
  | .little => [w.extractLsb' 0 8, w.extractLsb' 8 8, w.extractLsb' 16 8, w.extractLsb' 24 8]
  | .big => [w.extractLsb' 24 8, w.extractLsb' 16 8, w.extractLsb' 8 8, w.extractLsb' 0 8]

/-- R56: the word whose bytes, lowest byte address first, are these. -/
def wordOfBytes (o : ByteOrder) (b0 b1 b2 b3 : Byte) : Word :=
  match o with
  | .little => BitVec.ofNat 32 (b0.toNat + 256 * b1.toNat + 65536 * b2.toNat + 16777216 * b3.toNat)
  | .big => BitVec.ofNat 32 (b3.toNat + 256 * b2.toNat + 65536 * b1.toNat + 16777216 * b0.toNat)

/-- R212: words as raw bytes. -/
def bytesOfWords (o : ByteOrder) : List Word → List Byte
  | [] => []
  | w :: ws => bytesOfWord o w ++ bytesOfWords o ws

/-- R212: bytes grouped four at a time; none where the count is no multiple of 4. -/
def wordsOfBytes (o : ByteOrder) : List Byte → Option (List Word)
  | [] => .some []
  | b0 :: b1 :: b2 :: b3 :: rest => (wordsOfBytes o rest).map (fun ws => wordOfBytes o b0 b1 b2 b3 :: ws)
  | _ => .none

/-! ### Image loads -/

/-- R211, I14: the integers of a text image become IMAGE; a load that does not fit is rejected and IMAGE is kept
(log 8). Memory changes only at the next Init action (R264). -/
def State.loadText (s : State) (values : List Nat) : State :=
  if textImageOk s.memSize values then { s with image := values.map (BitVec.ofNat 32) } else s

/-- R212, I14: the bytes of a binary image, in byte order `o`, become IMAGE, or the load is rejected. -/
def State.loadBinary (o : ByteOrder) (s : State) (bytes : List Byte) : State :=
  if binaryImageOk s.memSize bytes then
    match wordsOfBytes o bytes with
    | .some ws => { s with image := ws }
    | .none => s
  else s

/-! ### Save -/

/-- R213: Memory begins with the resume header, a JMP whose operand A is 2. -/
def State.hasResumeHeader (s : State) : Bool := decide (s.wordAt 0 = 1) && decide (s.wordAt 1 = 2)

/-- R213: word `x` of the saved image. -/
def State.savedWord (s : State) (x : Nat) : Word :=
  if s.hasResumeHeader && decide (x = 2) then s.pc else s.wordAt x

/-- R213: the saved image, all N words of it. -/
def State.savedImage (s : State) : List Word := (List.range s.memSize).map s.savedWord

/-- R213: the saved image as bytes. -/
def State.savedBytes (o : ByteOrder) (s : State) : List Byte := bytesOfWords o s.savedImage

/-- R213: what a save does to live Memory; `live` is SAVE_PATCH_LIVE. -/
def State.saveWith (live : Bool) (s : State) : State :=
  if s.hasResumeHeader && live then { s with mem := s.mem.write 2 s.pc } else s

/-! ### Framebuffer -/

/-- R54, R214: pixel word `k` of the framebuffer, where it has one. The framebuffer lies inside Memory in every state of a
run (R10), so that every pixel is a word of Memory. -/
def State.framePixel (s : State) (k : Nat) : Option Word :=
  if k < s.frameBuffer.width * s.frameBuffer.height ∧ s.frameBuffer.base + k < s.memSize then
    .some (s.wordAt (s.frameBuffer.base + k))
  else .none

/-- R56: byte `k` of the byte view of all Memory, where there is one. -/
def State.byteAt (o : ByteOrder) (s : State) (k : Nat) : Option Byte :=
  if k / 4 < s.memSize then (bytesOfWord o (s.wordAt (k / 4)))[k % 4]? else .none

/-! ### Status view -/

/-- R32: the width of `queue_len`, ⌈log2(Q_CAP + 1)⌉ bits. -/
def queueLenWidth (cap : Nat) : Nat := Nat.clog 2 (cap + 1)

/-- R32: the host-readable status view, with a `queue_len` of `w` bits. -/
structure Status (w : Nat) where
  mode : BitVec 3
  yielded : Bool
  pc : Word
  stepCount : Nat
  stepBudget : Budget
  /-- Absent outside Blocked, where the spec calls it not meaningful (log 10). -/
  blockedAddr : Option Word
  queueLen : BitVec w
  diagCause : BitVec 3
  diagPc : Word
  diagInfo : Word
  deriving DecidableEq, Repr

/-- R32: the mode codes. -/
def Mode.code : Mode → BitVec 3
  | .init => 0
  | .running _ => 1
  | .paused => 2
  | .blocked .one _ => 3
  | .blocked .many _ => 4
  | .halted => 5

/-- R230: the cause codes. -/
def Cause.code : Cause → BitVec 3
  | .none => 0
  | .haltInstr => 1
  | .invalidOpcode => 2
  | .divideByZero => 3
  | .addressError => 4
  | .misalignedTarget => 5

/-- R26: the address a blocked READ waits to have written. -/
def Mode.blockedAddr : Mode → Option Word
  | .blocked _ a => .some a
  | _ => .none

/-- R32. The queue's length is at most Q_CAP in every state of a run (R178), so `queue_len` holds it whole (log 10). -/
def State.status (s : State) : Status (queueLenWidth s.queueCap) where
  mode := s.mode.code
  yielded := decide (s.mode = .running .yielded)
  pc := s.pc
  stepCount := s.stepCount
  stepBudget := s.stepBudget
  blockedAddr := s.mode.blockedAddr
  queueLen := BitVec.ofNat _ s.queue.length
  diagCause := s.diag.cause.code
  diagPc := s.diag.pc
  diagInfo := s.diag.info

end Sys2Proof.Machine
end

