-- ==== Sys2Proof/Machine/Controller.lean ====
section
/-! DEFINITION. The execution controller's host inputs (spec/45_execution_controller.md R171 to R177), its budget check
(R163) and the states that enable no internal transition (R184). -/

namespace Sys2Proof.Machine

/-- R172, R173: enter Running(Active) with the given budget; a pending continuation is cancelled by leaving
Running(Yielded) (R179). -/
def State.runWith (s : State) (b : Budget) : State := { s with stepBudget := b, mode := .running .active }

/-- The budget of one more instruction: StepCount + 1. -/
def State.oneMore (s : State) : Budget := .finite (s.stepCount + 1)

/-- R172. -/
def State.onStart (s : State) : State :=
  match s.mode with
  | .init => s.runWith .unlimited
  | .running _ => s.runWith .unlimited
  | .paused => s.runWith .unlimited
  | .blocked _ a => { s with mode := .blocked .many a }
  | .halted => s.initAction.runWith .unlimited

/-- R173. -/
def State.onStep (s : State) : State :=
  match s.mode with
  | .init => s.runWith s.oneMore
  | .running _ => s.runWith s.oneMore
  | .paused => s.runWith s.oneMore
  | .blocked _ a => { s with mode := .blocked .one a }
  | .halted => s.initAction.runWith s.initAction.oneMore

/-- R174. -/
def State.onReload (s : State) : State := s.initAction

/-- R175: the budget a blocked READ resumes with. -/
def State.resumeBudget (s : State) : Resume → Budget
  | .one => s.oneMore
  | .many => .unlimited

/-- R175, R176: a key code goes straight to a blocked READ, else into the queue. -/
def State.onKey (s : State) (k : Word) : State :=
  match s.mode with
  | .blocked r a => State.runWith { s with mem := s.mem.write a.toNat k } (s.resumeBudget r)
  | _ => { s with queue := queuePush s.queueCap s.queue k }

/-- R171: the pending continuation fires; elsewhere nothing. -/
def State.onTick (s : State) : State :=
  match s.mode with
  | .running .yielded => { s with mode := .running .active }
  | _ => s

/-- R161, R211 to R213: what a host input does. -/
def State.onInput (s : State) : HostInput → State
  | .start => s.onStart
  | .step => s.onStep
  | .reload => s.onReload
  | .key k => s.onKey k
  | .tick => s.onTick
  | .loadText values => s.loadText values
  | .loadBinary bytes => State.loadBinary Config.byteOrder s bytes
  | .save => State.saveWith Config.savePatchLive s

/-- R163: the budget is reached. -/
def State.budgetReached (s : State) : Bool :=
  match s.stepBudget with
  | .finite n => decide (n ≤ s.stepCount)
  | .unlimited => false

/-- R163: the `break` transition. -/
def State.takeBreak (s : State) : State := State.emit { s with mode := .paused } .paused

/-- R160, R184: an internal transition is enabled exactly in Running(Active). -/
def State.isActive (s : State) : Bool := decide (s.mode = .running .active)

end Sys2Proof.Machine
end

