-- ==== Sys2Proof/Machine/Alu.lean ====
section
/-! DEFINITION. The integer laws of the ALU (spec/43_arithmetic_logic.md R130): every operand and result is an unsigned
32-bit word. The machine has no flags (spec/10_state.md R31), so this file takes the place of a file of flag rules. -/

namespace Sys2Proof.Machine

/-- R130, R131. -/
def aluAdd (b c : Word) : Word := b + c

/-- R130, R132. -/
def aluSub (b c : Word) : Word := b - c

/-- R130, R133. -/
def aluMul (b c : Word) : Word := b * c

/-- R130, R134: for a divisor other than 0. -/
def aluDiv (b c : Word) : Word := b / c

/-- R130, R135: for a divisor other than 0. -/
def aluMod (b c : Word) : Word := b % c

/-- R130, R136. -/
def aluLt (b c : Word) : Word := if b < c then 1 else 0

/-- R130, R137. -/
def aluNand (b a : Word) : Word := ~~~(b &&& a)

end Sys2Proof.Machine
end

