-- ==== Sys2Proof/Machine/Operands.lean ====
section
/-! DEFINITION. The operand forms (spec/30_encoding.md R73, spec/42_data_movement.md R120): direct, indirect through a
pointer word, jump target through memory; and the effect of an instruction that stores one word and goes on. -/

namespace Sys2Proof.Machine

/-- R73: the direct operand `mem[x]`. -/
def direct (s : State) (x : Word) : Except Raised Word := memRead s x

/-- R73, R122: the memory-indirect operand `mem[mem[b]]`. -/
def indirect (s : State) (b : Word) : Except Raised Word := (memRead s b).bind (fun p => memRead s p)

/-- R110: a jump target is a multiple of 4. -/
def checkTarget (t : Word) : Except Raised Word :=
  if t.toNat % 4 = 0 then .ok t else .error ⟨.misalignedTarget, t⟩

/-- R73, R112: the jump target held in the word at `a`. -/
def jumpTarget (s : State) (a : Word) : Except Raised Word := (memRead s a).bind checkTarget

/-- R94: no write, the next instruction in line. -/
def goOn (s : State) (ev : Event) : Effect := ⟨.none, s.pcPlus4, ev⟩

/-- R93, R94: write `v` at `a` and go on to the next instruction in line, with no event. -/
def storeAndGoOn (s : State) (a v : Word) : Effect := ⟨.some (a, v), s.pcPlus4, .none⟩

/-- A jump to `t` with no event. -/
def jumpTo (t : Word) : Effect := ⟨.none, t, .none⟩

/-- R131 to R136: read B, then C, then store the result at A. -/
def binary (s : State) (a b c : Word) (f : Word → Word → Word) : Except Raised Effect :=
  (direct s b).bind (fun x => (direct s c).bind (fun y => .ok (storeAndGoOn s a (f x y))))

/-- R134, R135: as `binary`, with a zero divisor raising `DivideByZero` of its address C. -/
def dividing (s : State) (a b c : Word) (f : Word → Word → Word) : Except Raised Effect :=
  (direct s b).bind (fun x => (direct s c).bind (fun y =>
    if y = 0 then .error ⟨.divideByZero, c⟩ else .ok (storeAndGoOn s a (f x y))))

end Sys2Proof.Machine
end

