-- ==== Sys2Proof/Machine/Arithmetic.lean ====
section
/-! DEFINITION. ADD, SUB, MUL, DIV, MOD, LT, NAND (spec/43_arithmetic_logic.md R131 to R137). -/

namespace Sys2Proof.Machine

/-- R131. -/
def execAdd (a b c : Word) (s : State) : Host.Outcome State Fault Refusal := s.complete (binary s a b c aluAdd)

/-- R132. -/
def execSub (a b c : Word) (s : State) : Host.Outcome State Fault Refusal := s.complete (binary s a b c aluSub)

/-- R133. -/
def execMul (a b c : Word) (s : State) : Host.Outcome State Fault Refusal := s.complete (binary s a b c aluMul)

/-- R134. -/
def execDiv (a b c : Word) (s : State) : Host.Outcome State Fault Refusal := s.complete (dividing s a b c aluDiv)

/-- R135. -/
def execMod (a b c : Word) (s : State) : Host.Outcome State Fault Refusal := s.complete (dividing s a b c aluMod)

/-- R136. -/
def execLt (a b c : Word) (s : State) : Host.Outcome State Fault Refusal := s.complete (binary s a b c aluLt)

/-- R137: the second operand is the value at A before the instruction. -/
def execNand (a b : Word) (s : State) : Host.Outcome State Fault Refusal := s.complete (binary s a b a aluNand)

end Sys2Proof.Machine
end

