-- ==== Sys2Proof/Machine/ControlTransfer.lean ====
section
/-! DEFINITION. HALT, JMP, JIF, SAVEPC (spec/41_control_transfer.md R110 to R114). -/

namespace Sys2Proof.Machine

/-- R111: emit Halt, PC unchanged. -/
def execHalt (s : State) : Host.Outcome State Fault Refusal := s.complete (.ok ⟨.none, s.pc, .halt⟩)

/-- R112: PC := mem[A]. -/
def execJmp (a : Word) (s : State) : Host.Outcome State Fault Refusal :=
  s.complete ((jumpTarget s a).map jumpTo)

/-- R113: if mem[B] = 0 then PC := mem[A]; A is read only when the branch is taken. -/
def execJif (a b : Word) (s : State) : Host.Outcome State Fault Refusal :=
  s.complete ((direct s b).bind (fun cnd =>
    if cnd = 0 then (jumpTarget s a).map jumpTo else .ok (goOn s .none)))

/-- R114: mem[A] := PC, the address of this instruction. -/
def execSavepc (a : Word) (s : State) : Host.Outcome State Fault Refusal :=
  s.complete (.ok (storeAndGoOn s a s.pc))

end Sys2Proof.Machine
end

