-- ==== Sys2Proof/Machine/DataMovement.lean ====
section
/-! DEFINITION. MOV, LOAD, STORE (spec/42_data_movement.md R120 to R123). -/

namespace Sys2Proof.Machine

/-- R121: mem[A] := mem[B]. -/
def execMov (a b : Word) (s : State) : Host.Outcome State Fault Refusal :=
  s.complete ((direct s b).map (storeAndGoOn s a))

/-- R122: mem[A] := mem[mem[B]]. -/
def execLoad (a b : Word) (s : State) : Host.Outcome State Fault Refusal :=
  s.complete ((indirect s b).map (storeAndGoOn s a))

/-- R123: mem[mem[B]] := mem[A], the pointer read first. -/
def execStore (a b : Word) (s : State) : Host.Outcome State Fault Refusal :=
  s.complete ((direct s b).bind (fun p => (direct s a).map (storeAndGoOn s p)))

end Sys2Proof.Machine
end

