-- ==== Sys2Proof/Machine/HostEvents.lean ====
section
/-! DEFINITION. DRAW, READ, PRINT (spec/44_io_events.md R150 to R153). -/

namespace Sys2Proof.Machine

/-- R151. -/
def execDraw (s : State) : Host.Outcome State Fault Refusal := s.complete (.ok (goOn s .draw))

/-- R152: A is range-checked and not read; the key code is the controller's to write (R168, R175). -/
def execRead (a : Word) (s : State) : Host.Outcome State Fault Refusal :=
  s.complete ((checkAddr s a).map (fun _ => goOn s (.keyboard a)))

/-- R153. -/
def execPrint (a : Word) (s : State) : Host.Outcome State Fault Refusal :=
  s.complete ((direct s a).map (fun v => goOn s (.print v)))

end Sys2Proof.Machine
end

