-- ==== Sys2Proof/Machine/Dispatch.lean ====
section
/-! DEFINITION. The dispatch of an instruction to its meaning (spec/40_instruction_cycle.md R92). -/

namespace Sys2Proof.Machine

def exec (i : Instr) (s : State) : Host.Outcome State Fault Refusal :=
  match i with
  | .halt => Sys2Proof.Machine.execHalt s
  | .jmp a => Sys2Proof.Machine.execJmp a s
  | .jif a b => Sys2Proof.Machine.execJif a b s
  | .savepc a => Sys2Proof.Machine.execSavepc a s
  | .mov a b => Sys2Proof.Machine.execMov a b s
  | .load a b => Sys2Proof.Machine.execLoad a b s
  | .store a b => Sys2Proof.Machine.execStore a b s
  | .add a b c => Sys2Proof.Machine.execAdd a b c s
  | .sub a b c => Sys2Proof.Machine.execSub a b c s
  | .mul a b c => Sys2Proof.Machine.execMul a b c s
  | .div a b c => Sys2Proof.Machine.execDiv a b c s
  | .mod a b c => Sys2Proof.Machine.execMod a b c s
  | .lt a b c => Sys2Proof.Machine.execLt a b c s
  | .nand a b => Sys2Proof.Machine.execNand a b s
  | .draw => Sys2Proof.Machine.execDraw s
  | .read a => Sys2Proof.Machine.execRead a s
  | .print a => Sys2Proof.Machine.execPrint a s

end Sys2Proof.Machine
end

