-- ==== Sys2Proof/Machine/Executor.lean ====
section
/-! DEFINITION. The executor step around an instruction's meaning (spec/40_instruction_cycle.md R91, R92, R97), the
internal transitions (spec/45_execution_controller.md R163, R164) and the choice of the next transition (R160). -/

namespace Sys2Proof.Machine

/-- R91: the first of the addresses PC to PC + 3 that does not exist, checked in rising order. -/
def State.fetchFault (s : State) : Option Nat :=
  if s.memSize ≤ s.pc.toNat then .some s.pc.toNat
  else if s.memSize ≤ s.pc.toNat + 1 then .some (s.pc.toNat + 1)
  else if s.memSize ≤ s.pc.toNat + 2 then .some (s.pc.toNat + 2)
  else if s.memSize ≤ s.pc.toNat + 3 then .some (s.pc.toNat + 3)
  else .none

/-- R91: the four words at PC. -/
def State.fetchWords (s : State) : InstrWords :=
  ⟨s.wordAt s.pc.toNat, s.wordAt (s.pc.toNat + 1), s.wordAt (s.pc.toNat + 2), s.wordAt (s.pc.toNat + 3)⟩

/-- R91: the latches loaded. -/
def State.latch (s : State) (w : InstrWords) : State := { s with latches := ⟨w.op, w.a, w.b, w.c⟩ }

/-- R23: the latched instruction. -/
def State.latched (s : State) : InstrWords := ⟨s.latches.op, s.latches.a, s.latches.b, s.latches.c⟩

/-- R92, R97: decode from the latches and execute; an invalid opcode raises `InvalidOpcode` of the opcode. -/
def State.execLatched (s : State) : Host.Outcome State Fault Refusal :=
  match decode s.latched with
  | .ok i => exec i s
  | .error _ => s.complete (.error ⟨.invalidOpcode, s.latches.op⟩)

/-- R97, R164: one executor step with the controller's reaction: the `exec` transition. -/
def State.execStep (s : State) : Host.Outcome State Fault Refusal :=
  match s.fetchFault with
  | .some x => s.complete (.error ⟨.addressError, BitVec.ofNat 32 x⟩)
  | .none => (s.latch s.fetchWords).execLatched

/-- R163, R164, R184: the block's internal transition; in a waiting state there is none. -/
def State.internal (s : State) : Host.Outcome State Fault Refusal :=
  if s.isActive then
    if s.budgetReached then .next s.takeBreak else s.execStep
  else .fault .waitingForHost

/-- R160: the next transition of a run, as the schedule says it (log 5): a host input; or the block's turn, which passes
without effect where no internal transition is enabled. With nothing scheduled the host is quiet: the block goes on,
and in a waiting state it is stuck (log 6). -/
def State.advance (s : State) : Host.Outcome State Fault Refusal :=
  match s.schedule with
  | [] => s.internal
  | .block :: rest =>
    if s.isActive then State.internal { s with schedule := rest } else .next { s with schedule := rest }
  | .host e :: rest => .next (State.onInput { s with schedule := rest } e)

/-- The state in which the very next step fetches and runs the four words `w` (log 13): they stand at PC, the mode is
Running(Active) with no budget, and the block has the next turn. -/
def State.withInstr (s : State) (w : InstrWords) : State :=
  { s with
    mem := (((s.mem.write s.pc.toNat w.op).write (s.pc.toNat + 1) w.a).write (s.pc.toNat + 2) w.b).write
      (s.pc.toNat + 3) w.c
    mode := .running .active
    stepBudget := .unlimited
    schedule := .block :: s.schedule }

end Sys2Proof.Machine
end

