-- ==== Sys2Proof/Machine/Step.lean ====
section
/-! DEFINITION. One transition of the block (spec/45_execution_controller.md R160), and the placing of one instruction
where the next step fetches it. -/

namespace Sys2Proof.Machine

def step (s : State) : Host.Outcome State Fault Refusal := s.advance

/-- The instruction whose bits are the first `nbits` of `w`, placed where `step` fetches next (log 13). -/
def State.withFetchWord (s : State) (nbits w : Nat) : State := s.withInstr (wordsOfBits (tableBits nbits w))

end Sys2Proof.Machine
end

