-- ==== Sys2Proof/Safety.lean ====
section
/-! DEFINITION. The words the statements use: what a next state keeps and changes, whose turn it is, the operand words an
opcode uses, the word each instruction writes, the reset values, and the invariant of the block. -/

namespace Sys2Proof.Machine

/-- R50: the address is one of the N words of Memory. -/
abbrev State.hasWord (s : State) (a : Word) : Prop := a.toNat < s.memSize

/-- The word at the address an operand word names. -/
def State.at (s : State) (a : Word) : Word := s.wordAt a.toNat

/-- The answer to `s` is a state that differs from it in nothing but: `v` is the word at `a`, PC is PC + 4, StepCount one
more (R94, R95). -/
def StoresAndGoesOn (s : State) (answer : Host.Outcome State Fault Refusal) (a v : Word) : Prop :=
  ∃ t, answer = .next t ∧ (∀ x, t.wordAt x = if x = a.toNat then v else s.wordAt x) ∧
    t = { s with mem := t.mem, pc := s.pc + 4, stepCount := s.stepCount + 1 }

/-- `s` halted by `cause`: the diagnostic latched, Mode Halted, one output, all else kept (R96, R164, R233). -/
def State.haltedBy (s : State) (cause : Cause) (info : Word) : State :=
  { s with
    diag := ⟨cause, s.pc, info⟩
    mode := .halted
    trace := s.trace ++ [.halted ⟨cause, s.pc, info⟩] }

/-- R131 to R133, R136: an ALU instruction whose operands and destination exist stores `v`, and the first of B, C, A that
does not exist raises `AddressError`. -/
def BinaryMeaning (i : Instr) (s : State) (a b c v : Word) : Prop :=
  (s.hasWord b → s.hasWord c → s.hasWord a → StoresAndGoesOn s (exec i s) a v) ∧
  (¬ s.hasWord b → exec i s = .next (s.haltedBy .addressError b)) ∧
  (s.hasWord b → ¬ s.hasWord c → exec i s = .next (s.haltedBy .addressError c)) ∧
  (s.hasWord b → s.hasWord c → ¬ s.hasWord a → exec i s = .next (s.haltedBy .addressError a))

/-- R134, R135: as `BinaryMeaning`, with `DivideByZero(C)` between the reads and the write. -/
def DividingMeaning (i : Instr) (s : State) (a b c v : Word) : Prop :=
  (s.hasWord b → s.hasWord c → s.at c ≠ 0 → s.hasWord a → StoresAndGoesOn s (exec i s) a v) ∧
  (¬ s.hasWord b → exec i s = .next (s.haltedBy .addressError b)) ∧
  (s.hasWord b → ¬ s.hasWord c → exec i s = .next (s.haltedBy .addressError c)) ∧
  (s.hasWord b → s.hasWord c → s.at c = 0 → exec i s = .next (s.haltedBy .divideByZero c)) ∧
  (s.hasWord b → s.hasWord c → s.at c ≠ 0 → ¬ s.hasWord a → exec i s = .next (s.haltedBy .addressError a))

/-- R160: the next transition is the block's own, and `rest` is what the schedule holds after it. -/
abbrev State.blockTurn (s : State) (rest : List Move) : Prop :=
  (s.schedule = [] ∧ rest = []) ∨ s.schedule = .block :: rest

/-- R163, R164: the `exec` transition is the one enabled. -/
def State.execEnabled (s : State) : Prop :=
  s.mode = .running .active ∧ ∀ n, s.stepBudget = .finite n → s.stepCount < n

/-- The state an instruction's meaning runs in: latches loaded (R91), the block's turn taken off the schedule. -/
def State.fetched (s : State) (rest : List Move) : State := { s.latch s.fetchWords with schedule := rest }

/-- R75: the opcodes that use operand A. -/
def usesA (op : Nat) : Bool := decide (1 ≤ op) && decide (op ≤ 16) && decide (op ≠ 14)

/-- R75: the opcodes that use operand B. -/
def usesB (op : Nat) : Bool := decide (op = 2) || (decide (4 ≤ op) && decide (op ≤ 13))

/-- R75: the opcodes that use operand C. -/
def usesC (op : Nat) : Bool := decide (7 ≤ op) && decide (op ≤ 12)

/-- The word an instruction that retires writes, address first (R75, R93), as its meaning computes both: the address is A,
or for STORE the pointer read from the word at B. READ's is the controller's key write, when a key is queued (R168). -/
def storeOf (s : State) : Instr → Option (Word × Word)
  | .halt => .none
  | .jmp _ => .none
  | .jif _ _ => .none
  | .savepc a => .some (a, s.pc)
  | .mov a b => .some (a, s.at b)
  | .load a b => .some (a, s.at (s.at b))
  | .store a b => .some (s.at b, s.at a)
  | .add a b c => .some (a, aluAdd (s.at b) (s.at c))
  | .sub a b c => .some (a, aluSub (s.at b) (s.at c))
  | .mul a b c => .some (a, aluMul (s.at b) (s.at c))
  | .div a b c => .some (a, aluDiv (s.at b) (s.at c))
  | .mod a b c => .some (a, aluMod (s.at b) (s.at c))
  | .lt a b c => .some (a, aluLt (s.at b) (s.at c))
  | .nand a b => .some (a, aluNand (s.at b) (s.at a))
  | .draw => .none
  | .read a => s.queue.head?.map (fun k => (a, k))
  | .print _ => .none

/-- The address an instruction's write goes to, for the instructions that write. -/
def storeTarget (s : State) (i : Instr) : Option Word := (storeOf s i).map Prod.fst

/-- The word a read of `x` finds once `v` has been written at `a`. -/
def State.wordAfter (s : State) (a v : Word) (x : Nat) : Word := if x = a.toNat then v else s.wordAt x

/-- R91: the four words a fetch at `pc` finds once `v` has been written at `a`. -/
def State.fetchAfter (s : State) (a v pc : Word) : InstrWords :=
  ⟨s.wordAfter a v pc.toNat, s.wordAfter a v (pc.toNat + 1), s.wordAfter a v (pc.toNat + 2),
    s.wordAfter a v (pc.toNat + 3)⟩

/-- R94: the next PC of each instruction that retires. -/
def nextPC (s : State) : Instr → Word
  | .halt => s.pc
  | .jmp a => s.at a
  | .jif a b => if s.at b = 0 then s.at a else s.pc + 4
  | .savepc _ => s.pc + 4
  | .mov _ _ => s.pc + 4
  | .load _ _ => s.pc + 4
  | .store _ _ => s.pc + 4
  | .add _ _ _ => s.pc + 4
  | .sub _ _ _ => s.pc + 4
  | .mul _ _ _ => s.pc + 4
  | .div _ _ _ => s.pc + 4
  | .mod _ _ _ => s.pc + 4
  | .lt _ _ _ => s.pc + 4
  | .nand _ _ => s.pc + 4
  | .draw => s.pc + 4
  | .read _ => s.pc + 4
  | .print _ => s.pc + 4

/-- R262: every element of `t` at its reset value, Memory being IMAGE and 0 beyond it. -/
def State.AtReset (t : State) : Prop :=
  (∀ x, t.wordAt x = t.image.getD x 0) ∧ t.pc = 0 ∧ t.latches = ⟨0, 0, 0, 0⟩ ∧ t.stepCount = 0 ∧
  t.stepBudget = .finite 0 ∧ t.mode = .init ∧ t.queue = [] ∧ t.diag = ⟨.none, 0, 0⟩ ∧ t.trace = [] ∧
  t.status.mode = 0 ∧ t.status.yielded = false ∧ t.status.pc = 0 ∧ t.status.stepCount = 0 ∧ t.status.queueLen = 0 ∧
  t.status.diagCause = 0

/-- `t` is what the Init action makes of `s` (R261), with Mode and StepBudget as the transition that performs it then sets
them. No output is appended: whether the trace is kept or emptied is left open here (log 7). -/
def InitLeaves (s t : State) (m : Mode) (b : Budget) (rest : List Move) : Prop :=
  (∀ x, t.wordAt x = s.image.getD x 0) ∧ (t.trace = s.trace ∨ t.trace = []) ∧
  t = { s with
        mem := t.mem
        pc := 0
        latches := ⟨0, 0, 0, 0⟩
        stepCount := 0
        stepBudget := b
        mode := m
        queue := []
        diag := ⟨.none, 0, 0⟩
        trace := t.trace
        schedule := rest }

/-- What holds in every state of a run (R20, R22, R26, R27, R29 and the ranges of R6, R8, R9, R10). -/
structure State.Inv (s : State) : Prop where
  /-- Memory is in canonical form. -/
  memWf : s.mem.wf = true
  /-- No cell lies at or beyond N (R52). -/
  memWithin : s.mem.within s.memSize = true
  /-- R22: PC is a multiple of 4. -/
  pcAligned : s.pc.toNat % 4 = 0
  /-- R178: the queue holds at most Q_CAP key codes. -/
  queueBounded : s.queue.length ≤ s.queueCap
  /-- R6, R8, R10. -/
  params : paramsOk s.memSize s.queueCap s.frameBuffer = true
  /-- R9. -/
  imageFits : imageFits s.memSize s.image = true
  /-- R175: a blocked READ's address exists, and the queue is empty while it waits. -/
  blockedOk : ∀ r a, s.mode = .blocked r a → s.hasWord a ∧ s.queue = []
  /-- R29: the diagnostic is latched exactly in Halted. -/
  diagOk : s.diag.cause = .none ↔ s.mode ≠ .halted
  /-- R163, D8: a finite budget is exhausted or one step from exhausted while Running. -/
  budgetOk : ∀ p n, s.mode = .running p → s.stepBudget = .finite n → s.stepCount ≤ n ∧ n ≤ s.stepCount + 1

end Sys2Proof.Machine
end

