-- ==== Sys2Proof/Certificates/Slice0/Obligations.lean ====
section
/-! DEFINITION. The statements for the provers. Rules R<n> are those of spec/; a statement that rests on an entry of the
assumption log names it. -/

open Sys2Proof Sys2Proof.Machine

/-! ### Encoding -/

/-- R70, R71, R72: the 128 bits of an instruction's four words decode to it, at every value of its operand words. -/
def Obligations.DecodeOfEncodedBits : Prop :=
  ∀ i : Instr, decodeTableWord 128 (bitsOfWords (encode i)) = some i

/-- R71, R75, R76: encoding what was decoded gives the opcode word and every used operand word back, bit for bit, and 0
for each ignored operand word (log 12). -/
def Obligations.EncodeOfDecodedWords : Prop :=
  ∀ (w : InstrWords) (i : Instr), decode w = .ok i →
    encode i = ⟨w.op, if usesA w.op.toNat then w.a else 0, if usesB w.op.toNat then w.b else 0,
      if usesC w.op.toNat then w.c else 0⟩

/-- R72: opcode words 0 to 16 select the 17 instructions, by number, and every other value is an invalid opcode. -/
def Obligations.OpcodesZeroToSixteenDecode : Prop :=
  ∀ w : InstrWords,
    ((∃ i, decode w = .ok i ∧ i.opcode = w.op.toNat) ↔ w.op.toNat ≤ 16) ∧
    (17 ≤ w.op.toNat → decode w = .error (.invalidOpcode w.op))

/-- R76: words that agree on the opcode and on the operands it uses decode alike. -/
def Obligations.IgnoredOperandWordsDoNotMatter : Prop :=
  ∀ w w' : InstrWords, w.op = w'.op →
    (usesA w.op.toNat = true → w.a = w'.a) → (usesB w.op.toNat = true → w.b = w'.b) →
    (usesC w.op.toNat = true → w.c = w'.c) → decode w = decode w'

/-- Words written out in spec/95_test_vectors.md and spec/30_encoding.md R80, one of each family, and an invalid opcode. -/
def Obligations.WordsOfTheSpecDecode : Prop :=
  decode ⟨1, 2, 4, 0⟩ = .ok (.jmp 2) ∧ decode ⟨2, 27, 24, 0⟩ = .ok (.jif 27 24) ∧
  decode ⟨5, 36, 37, 0⟩ = .ok (.load 36 37) ∧ decode ⟨8, 40, 41, 42⟩ = .ok (.sub 40 41 42) ∧
  decode ⟨13, 40, 41, 200⟩ = .ok (.nand 40 41) ∧ decode ⟨15, 24, 0, 0⟩ = .ok (.read 24) ∧
  decode ⟨0, 9, 9, 9⟩ = .ok .halt ∧ decode ⟨17, 0, 0, 0⟩ = .error (.invalidOpcode 17)

/-! ### The step around an instruction -/

/-- R91, R92, R97: in Running(Active) with the budget not reached, when the four words at PC exist and decode to `i`, the
step is `exec i` of the state with the latches loaded and the block's turn taken off the schedule. -/
def Obligations.StepRunsTheDecodedInstruction : Prop :=
  ∀ (s : State) (rest : List Move) (i : Instr), s.blockTurn rest → s.execEnabled →
    s.pc.toNat + 3 < s.memSize → decode s.fetchWords = .ok i → step s = exec i (s.fetched rest)

/-- R91, R164, R232: a fetch of which some word does not exist halts with `AddressError` of the first such address, and no
latch is loaded. -/
def Obligations.FetchBeyondMemoryHalts : Prop :=
  ∀ (s : State) (rest : List Move) (k : Nat), s.blockTurn rest → s.execEnabled → k < 4 →
    s.memSize ≤ s.pc.toNat + k → (∀ j, j < k → s.pc.toNat + j < s.memSize) →
    step s = .next (State.haltedBy { s with schedule := rest } .addressError (BitVec.ofNat 32 (s.pc.toNat + k)))

/-- R77, R92, R231, R232: an opcode word of 17 or more halts with `InvalidOpcode` of that word, whatever the operand
words hold. -/
def Obligations.InvalidOpcodeHalts : Prop :=
  ∀ (s : State) (rest : List Move), s.blockTurn rest → s.execEnabled → s.pc.toNat + 3 < s.memSize →
    17 ≤ (s.at s.pc).toNat → step s = .next (State.haltedBy (s.fetched rest) .invalidOpcode (s.at s.pc))

/-- R163: with a finite budget reached the block pauses before the next executor step and changes nothing else; with the
budget not reached it takes the executor step. -/
def Obligations.BudgetCheckComesFirst : Prop :=
  ∀ (s : State) (rest : List Move), s.blockTurn rest →
    (∀ n, s.mode = .running .active → s.stepBudget = .finite n → n ≤ s.stepCount →
      step s = .next { s with mode := .paused, trace := s.trace ++ [.paused], schedule := rest }) ∧
    (s.execEnabled → step s = State.execStep { s with schedule := rest })

/-- R184, I17: outside Running(Active) a quiet host leaves the block stuck (the stop is the model's form of it, log 6); a
turn scheduled for the block there passes and changes nothing but the schedule (the model's choice, log 5); in
Running(Active) a transition is always enabled. -/
def Obligations.WaitingStatesNeedTheHost : Prop :=
  ∀ s : State,
    (s.mode ≠ .running .active → s.schedule = [] → step s = .fault .waitingForHost) ∧
    (∀ rest, s.mode ≠ .running .active → s.schedule = .block :: rest → step s = .next { s with schedule := rest }) ∧
    (∀ rest, s.mode = .running .active → s.blockTurn rest → ∃ t, step s = .next t)

/-! ### Control transfer -/

/-- R111, R170: HALT retires with PC unchanged, and the block enters Halted with the diagnostic (HaltInstr, PC, 0). -/
def Obligations.HaltRetiresAndHalts : Prop :=
  ∀ (s : State) (a b c : Word), decode ⟨0, a, b, c⟩ = .ok .halt ∧
    exec .halt s = .next { s with
      stepCount := s.stepCount + 1
      diag := ⟨.haltInstr, s.pc, 0⟩
      mode := .halted
      trace := s.trace ++ [.halted ⟨.haltInstr, s.pc, 0⟩] }

/-- R112: JMP. -/
def Obligations.JmpGoesThroughMemory : Prop :=
  ∀ (s : State) (a b c : Word), decode ⟨1, a, b, c⟩ = .ok (.jmp a) ∧
    (s.hasWord a → (s.at a).toNat % 4 = 0 →
      exec (.jmp a) s = .next { s with pc := s.at a, stepCount := s.stepCount + 1 }) ∧
    (¬ s.hasWord a → exec (.jmp a) s = .next (s.haltedBy .addressError a)) ∧
    (s.hasWord a → (s.at a).toNat % 4 ≠ 0 → exec (.jmp a) s = .next (s.haltedBy .misalignedTarget (s.at a)))

/-- R113: JIF, taken exactly when the word at B is 0; A is read only then. -/
def Obligations.JifBranchesOnZero : Prop :=
  ∀ (s : State) (a b c : Word), decode ⟨2, a, b, c⟩ = .ok (.jif a b) ∧
    (s.hasWord b → s.at b ≠ 0 →
      exec (.jif a b) s = .next { s with pc := s.pc + 4, stepCount := s.stepCount + 1 }) ∧
    (s.hasWord b → s.at b = 0 → s.hasWord a → (s.at a).toNat % 4 = 0 →
      exec (.jif a b) s = .next { s with pc := s.at a, stepCount := s.stepCount + 1 }) ∧
    (¬ s.hasWord b → exec (.jif a b) s = .next (s.haltedBy .addressError b)) ∧
    (s.hasWord b → s.at b = 0 → ¬ s.hasWord a → exec (.jif a b) s = .next (s.haltedBy .addressError a)) ∧
    (s.hasWord b → s.at b = 0 → s.hasWord a → (s.at a).toNat % 4 ≠ 0 →
      exec (.jif a b) s = .next (s.haltedBy .misalignedTarget (s.at a)))

/-- R114: SAVEPC stores its own address. -/
def Obligations.SavepcStoresItsOwnAddress : Prop :=
  ∀ (s : State) (a b c : Word), decode ⟨3, a, b, c⟩ = .ok (.savepc a) ∧
    (s.hasWord a → StoresAndGoesOn s (exec (.savepc a) s) a s.pc) ∧
    (¬ s.hasWord a → exec (.savepc a) s = .next (s.haltedBy .addressError a))

/-! ### Data movement -/

/-- R121: MOV. -/
def Obligations.MovCopiesAWord : Prop :=
  ∀ (s : State) (a b c : Word), decode ⟨4, a, b, c⟩ = .ok (.mov a b) ∧
    (s.hasWord b → s.hasWord a → StoresAndGoesOn s (exec (.mov a b) s) a (s.at b)) ∧
    (¬ s.hasWord b → exec (.mov a b) s = .next (s.haltedBy .addressError b)) ∧
    (s.hasWord b → ¬ s.hasWord a → exec (.mov a b) s = .next (s.haltedBy .addressError a))

/-- R122: LOAD, through the pointer word at B. -/
def Obligations.LoadReadsThroughThePointer : Prop :=
  ∀ (s : State) (a b c : Word), decode ⟨5, a, b, c⟩ = .ok (.load a b) ∧
    (s.hasWord b → s.hasWord (s.at b) → s.hasWord a →
      StoresAndGoesOn s (exec (.load a b) s) a (s.at (s.at b))) ∧
    (¬ s.hasWord b → exec (.load a b) s = .next (s.haltedBy .addressError b)) ∧
    (s.hasWord b → ¬ s.hasWord (s.at b) → exec (.load a b) s = .next (s.haltedBy .addressError (s.at b))) ∧
    (s.hasWord b → s.hasWord (s.at b) → ¬ s.hasWord a → exec (.load a b) s = .next (s.haltedBy .addressError a))

/-- R123: STORE, through the pointer word at B. -/
def Obligations.StoreWritesThroughThePointer : Prop :=
  ∀ (s : State) (a b c : Word), decode ⟨6, a, b, c⟩ = .ok (.store a b) ∧
    (s.hasWord b → s.hasWord a → s.hasWord (s.at b) →
      StoresAndGoesOn s (exec (.store a b) s) (s.at b) (s.at a)) ∧
    (¬ s.hasWord b → exec (.store a b) s = .next (s.haltedBy .addressError b)) ∧
    (s.hasWord b → ¬ s.hasWord a → exec (.store a b) s = .next (s.haltedBy .addressError a)) ∧
    (s.hasWord b → s.hasWord a → ¬ s.hasWord (s.at b) →
      exec (.store a b) s = .next (s.haltedBy .addressError (s.at b)))

/-! ### Arithmetic and logic -/

/-- R131: ADD. -/
def Obligations.AddWrapsTheSum : Prop :=
  ∀ (s : State) (a b c : Word), decode ⟨7, a, b, c⟩ = .ok (.add a b c) ∧
    BinaryMeaning (.add a b c) s a b c (BitVec.ofNat 32 ((s.at b).toNat + (s.at c).toNat))

/-- R132: SUB. -/
def Obligations.SubWrapsTheDifference : Prop :=
  ∀ (s : State) (a b c : Word), decode ⟨8, a, b, c⟩ = .ok (.sub a b c) ∧
    BinaryMeaning (.sub a b c) s a b c (BitVec.ofNat 32
      (if (s.at c).toNat ≤ (s.at b).toNat then (s.at b).toNat - (s.at c).toNat
       else 4294967296 + (s.at b).toNat - (s.at c).toNat))

/-- R133: MUL, the low 32 bits of the exact product. -/
def Obligations.MulKeepsTheLowWord : Prop :=
  ∀ (s : State) (a b c : Word), decode ⟨9, a, b, c⟩ = .ok (.mul a b c) ∧
    BinaryMeaning (.mul a b c) s a b c (BitVec.ofNat 32 ((s.at b).toNat * (s.at c).toNat))

/-- R134: DIV, the floor of the quotient. -/
def Obligations.DivGivesTheFloor : Prop :=
  ∀ (s : State) (a b c : Word), decode ⟨10, a, b, c⟩ = .ok (.div a b c) ∧
    DividingMeaning (.div a b c) s a b c (BitVec.ofNat 32 ((s.at b).toNat / (s.at c).toNat))

/-- R135: MOD, the remainder. -/
def Obligations.ModGivesTheRemainder : Prop :=
  ∀ (s : State) (a b c : Word), decode ⟨11, a, b, c⟩ = .ok (.mod a b c) ∧
    DividingMeaning (.mod a b c) s a b c (BitVec.ofNat 32 ((s.at b).toNat % (s.at c).toNat))

/-- R136: LT, unsigned. -/
def Obligations.LtComparesUnsigned : Prop :=
  ∀ (s : State) (a b c : Word), decode ⟨12, a, b, c⟩ = .ok (.lt a b c) ∧
    BinaryMeaning (.lt a b c) s a b c (if (s.at b).toNat < (s.at c).toNat then 1 else 0)

/-- R137: NAND with the value at A before the instruction, never with C; the complement of `v` is 2^32 - 1 - v (R14). -/
def Obligations.NandUsesTheOldValueAtA : Prop :=
  ∀ (s : State) (a b c : Word), decode ⟨13, a, b, c⟩ = .ok (.nand a b) ∧
    (s.hasWord b → s.hasWord a → StoresAndGoesOn s (exec (.nand a b) s) a
      (BitVec.ofNat 32 (4294967295 - (s.at b &&& s.at a).toNat))) ∧
    (¬ s.hasWord b → exec (.nand a b) s = .next (s.haltedBy .addressError b)) ∧
    (s.hasWord b → ¬ s.hasWord a → exec (.nand a b) s = .next (s.haltedBy .addressError a))

/-! ### Host events -/

/-- R151, R166: DRAW retires, and the block yields to the host with the budget kept. -/
def Obligations.DrawYieldsToTheHost : Prop :=
  ∀ (s : State) (a b c : Word), decode ⟨14, a, b, c⟩ = .ok .draw ∧
    exec .draw s = .next { s with
      pc := s.pc + 4
      stepCount := s.stepCount + 1
      mode := .running .yielded
      trace := s.trace ++ [.draw] }

/-- R152: READ retires before any key code is written, or raises `AddressError` of A. -/
def Obligations.ReadRetiresOrFaults : Prop :=
  ∀ (s : State) (a b c : Word), decode ⟨15, a, b, c⟩ = .ok (.read a) ∧
    (s.hasWord a → ∃ t, exec (.read a) s = .next t ∧ t.pc = s.pc + 4 ∧ t.stepCount = s.stepCount + 1 ∧
      ∀ x, x ≠ a.toNat ∨ s.queue = [] → t.wordAt x = s.wordAt x) ∧
    (¬ s.hasWord a → exec (.read a) s = .next (s.haltedBy .addressError a))

/-- R168: a READ with a key queued gets the oldest one at once, and the block goes on. -/
def Obligations.ReadTakesTheOldestKey : Prop :=
  ∀ (s : State) (a k : Word) (keys : List Word), s.hasWord a → s.queue = k :: keys →
    ∃ t, exec (.read a) s = .next t ∧ (∀ x, t.wordAt x = if x = a.toNat then k else s.wordAt x) ∧
      t = { s with mem := t.mem, pc := s.pc + 4, stepCount := s.stepCount + 1, queue := keys }

/-- R169: a READ with no key queued blocks on its address, to resume with one step exactly when the budget is finite. -/
def Obligations.ReadBlocksOnAnEmptyQueue : Prop :=
  ∀ (s : State) (a : Word), s.hasWord a → s.queue = [] →
    exec (.read a) s = .next { s with
      pc := s.pc + 4
      stepCount := s.stepCount + 1
      mode := .blocked (if s.stepBudget = .unlimited then .many else .one) a
      trace := s.trace ++ [.blocked a] }

/-- R153, R167: PRINT outputs the word at A and the block goes on without yielding. -/
def Obligations.PrintOutputsTheWord : Prop :=
  ∀ (s : State) (a b c : Word), decode ⟨16, a, b, c⟩ = .ok (.print a) ∧
    (s.hasWord a → exec (.print a) s = .next { s with
      pc := s.pc + 4
      stepCount := s.stepCount + 1
      trace := s.trace ++ [.print (s.at a)] }) ∧
    (¬ s.hasWord a → exec (.print a) s = .next (s.haltedBy .addressError a))

/-! ### Rules over all instructions -/

/-- R25, R95, R181: every instruction answers a next state in every state, and leaves the latches, StepBudget, the
parameters and the schedule alone. -/
def Obligations.EveryInstructionAnswersANextState : Prop :=
  ∀ (i : Instr) (s : State), ∃ t, exec i s = .next t ∧
    t = { s with
          mem := t.mem
          pc := t.pc
          stepCount := t.stepCount
          mode := t.mode
          queue := t.queue
          diag := t.diag
          trace := t.trace }

/-- R58, R93: an instruction changes no word of Memory but the one at its store target. -/
def Obligations.OnlyTheStoreTargetChanges : Prop :=
  ∀ (i : Instr) (s t : State), exec i s = .next t →
    ∀ x, (∀ a, storeTarget s i = some a → x ≠ a.toNat) → t.wordAt x = s.wordAt x

/-- R96: a transition that enters Halted with a cause other than HaltInstr changes nothing but what the fault entry writes,
the latches and the schedule; and so for an instruction other than HALT, which changes not even those. -/
def Obligations.FaultsArePrecise : Prop :=
  (∀ s t : State, step s = .next t → s.mode ≠ .halted → t.mode = .halted → t.diag.cause ≠ .haltInstr →
    ∃ info, t.diag.cause ≠ .none ∧
      t = State.haltedBy { s with latches := t.latches, schedule := t.schedule } t.diag.cause info) ∧
  (∀ (i : Instr) (s t : State), exec i s = .next t → i ≠ .halt → s.mode ≠ .halted → t.mode = .halted →
    ∃ cause info, cause ≠ .none ∧ cause ≠ .haltInstr ∧ t = s.haltedBy cause info)

/-- R94: the next PC of every instruction: its own when it retires, the old one when it faults. -/
def Obligations.NextPcOfEveryInstruction : Prop :=
  ∀ (i : Instr) (s t : State), exec i s = .next t →
    (t.stepCount = s.stepCount + 1 ∧ t.pc = nextPC s i) ∨
    (t.stepCount = s.stepCount ∧ t.pc = s.pc ∧ t.mode = .halted)

/-- R98: what an instruction makes of PC and StepCount, the words it writes (a READ's key apart) and its outputs (a READ's
apart) depend on Memory, its size and PC alone. -/
def Obligations.OutcomeDependsOnMemoryAndPc : Prop :=
  ∀ (i : Instr) (s s' t t' : State), s.mem = s'.mem → s.memSize = s'.memSize → s.pc = s'.pc →
    exec i s = .next t → exec i s' = .next t' →
    t.pc = t'.pc ∧ t.stepCount + s'.stepCount = t'.stepCount + s.stepCount ∧
    ((∀ a, i ≠ .read a) → t.mem = t'.mem ∧ ∃ os, t.trace = s.trace ++ os ∧ t'.trace = s'.trace ++ os)

/-- R165 to R170, R180: only DRAW yields, only a READ with an empty queue blocks, and only HALT or a fault halts. -/
def Obligations.OnlyTheseEventsChangeTheMode : Prop :=
  ∀ (i : Instr) (s t : State), exec i s = .next t →
    (t.mode = s.mode ∧ t.diag = s.diag) ∨
    (i = .draw ∧ t.mode = .running .yielded ∧ t.diag = s.diag) ∨
    (∃ a r, i = .read a ∧ s.queue = [] ∧ t.mode = .blocked r a ∧ t.diag = s.diag) ∨
    (i = .halt ∧ t.mode = .halted ∧ t.diag = ⟨.haltInstr, s.pc, 0⟩) ∨
    (t.mode = .halted ∧ t.diag.pc = s.pc ∧ t.diag.cause ≠ .none ∧ t.diag.cause ≠ .haltInstr)

/-- R64: the word an instruction writes is seen by the next fetch, whichever instruction it is and wherever the word lies
(PC + 4 to PC + 7 among them): the next instruction's words are those of Memory with the write made, and the step that
fetches them loads them into the latches. So is the key code written to a blocked READ's address. -/
def Obligations.NextFetchSeesTheWrite : Prop :=
  (∀ (i : Instr) (s t : State) (a v : Word), exec i s = .next t → t.stepCount = s.stepCount + 1 →
    storeOf s i = some (a, v) →
    t.pc = s.pc + 4 ∧ t.fetchWords = s.fetchAfter a v (s.pc + 4) ∧
    ∀ rest, t.blockTurn rest → t.execEnabled → t.pc.toNat + 3 < t.memSize →
      ∃ u, step t = .next u ∧ u.latched = s.fetchAfter a v (s.pc + 4)) ∧
  (∀ (s : State) (rest : List Move) (k a : Word) (r : Resume), s.schedule = .host (.key k) :: rest →
    s.mode = .blocked r a → ∃ t, step s = .next t ∧ t.fetchWords = s.fetchAfter a k s.pc ∧
      ∀ later, t.blockTurn later → t.execEnabled → t.pc.toNat + 3 < t.memSize →
        ∃ u, step t = .next u ∧ u.latched = s.fetchAfter a k s.pc)

/-! ### The host's commands -/

/-- R172: `start`, in every mode. -/
def Obligations.StartRunsWithoutABudget : Prop :=
  ∀ (s : State) (rest : List Move), s.schedule = .host .start :: rest →
    (∀ r a, s.mode = .blocked r a → step s = .next { s with mode := .blocked .many a, schedule := rest }) ∧
    (s.mode = .halted → ∃ t, step s = .next t ∧ InitLeaves s t (.running .active) .unlimited rest) ∧
    (s.mode ≠ .halted → (∀ r a, s.mode ≠ .blocked r a) →
      step s = .next { s with stepBudget := .unlimited, mode := .running .active, schedule := rest })

/-- R173: `step`, in every mode. -/
def Obligations.StepRunsWithABudgetOfOne : Prop :=
  ∀ (s : State) (rest : List Move), s.schedule = .host .step :: rest →
    (∀ r a, s.mode = .blocked r a → step s = .next { s with mode := .blocked .one a, schedule := rest }) ∧
    (s.mode = .halted → ∃ t, step s = .next t ∧ InitLeaves s t (.running .active) (.finite 1) rest) ∧
    (s.mode ≠ .halted → (∀ r a, s.mode ≠ .blocked r a) →
      step s = .next
        { s with stepBudget := .finite (s.stepCount + 1), mode := .running .active, schedule := rest })

/-- R174, R261: `reload` performs the Init action in every mode. -/
def Obligations.ReloadAlwaysReturnsToInit : Prop :=
  ∀ (s : State) (rest : List Move), s.schedule = .host .reload :: rest →
    ∃ t, step s = .next t ∧ InitLeaves s t .init (.finite 0) rest

/-- R262, as log 7 reads it: the Init action leaves the output trace empty. -/
def Obligations.InitEmptiesTheTrace : Prop :=
  ∀ (s : State) (rest : List Move),
    (s.schedule = .host .reload :: rest ∨
      (s.mode = .halted ∧ (s.schedule = .host .start :: rest ∨ s.schedule = .host .step :: rest))) →
    ∃ t, step s = .next t ∧ t.trace = []

/-- R171: `tick` fires the pending continuation with the budget kept, and does nothing elsewhere. -/
def Obligations.TickFiresOnlyAPendingContinuation : Prop :=
  ∀ (s : State) (rest : List Move), s.schedule = .host .tick :: rest →
    (s.mode = .running .yielded → step s = .next { s with mode := .running .active, schedule := rest }) ∧
    (s.mode ≠ .running .yielded → step s = .next { s with schedule := rest })

/-- R175: a key code delivered in Blocked is written to the blocked READ's address, and the block runs on, with a budget
of one step or without a budget; with resume One, one more instruction executes and the block pauses, when that
instruction leaves it in Running(Active). -/
def Obligations.KeyResumesABlockedRead : Prop :=
  ∀ (s : State) (rest : List Move) (k a : Word) (r : Resume), s.schedule = .host (.key k) :: rest →
    s.mode = .blocked r a →
    ∃ u, step s = .next u ∧ (∀ x, u.wordAt x = if x = a.toNat then k else s.wordAt x) ∧
      u = { s with
            mem := u.mem
            stepBudget := if r = .one then .finite (s.stepCount + 1) else .unlimited
            mode := .running .active
            schedule := rest } ∧
      (r = .one → ∀ (i : Instr) (t : State) (later : List Move), rest = .block :: .block :: later →
        u.pc.toNat + 3 < u.memSize → decode u.fetchWords = .ok i →
        exec i (u.fetched (.block :: later)) = .next t → t.mode = .running .active →
        Sys2Proof.core.run 3 s = .next { t with mode := .paused, trace := t.trace ++ [.paused], schedule := later } ∧
          t.stepCount = s.stepCount + 1)

/-- R176, R177: a key code delivered elsewhere is queued, and a full queue drops its oldest. -/
def Obligations.KeyIsQueuedOutsideBlocked : Prop :=
  ∀ (s : State) (rest : List Move) (k : Word), s.schedule = .host (.key k) :: rest →
    (∀ r a, s.mode ≠ .blocked r a) →
    (s.queue.length ≠ s.queueCap → step s = .next { s with queue := s.queue ++ [k], schedule := rest }) ∧
    (∀ old keys, s.queue = old :: keys → s.queue.length = s.queueCap →
      step s = .next { s with queue := keys ++ [k], schedule := rest })

/-- R163, R173: `step` in Paused runs exactly the one decoded instruction and pauses again, when that instruction leaves
the block in Running(Active). -/
def Obligations.SingleStepRunsOneInstruction : Prop :=
  ∀ (s u t : State) (rest : List Move) (i : Instr), s.mode = .paused →
    s.schedule = .host .step :: .block :: .block :: rest →
    u = { s with stepBudget := .finite (s.stepCount + 1), mode := .running .active, schedule := .block :: .block :: rest } →
    u.pc.toNat + 3 < u.memSize → decode u.fetchWords = .ok i →
    exec i (u.fetched (.block :: rest)) = .next t → t.mode = .running .active →
    Sys2Proof.core.run 3 s = .next { t with mode := .paused, trace := t.trace ++ [.paused], schedule := rest } ∧
      t.stepCount = s.stepCount + 1

/-! ### Images, save, views -/

/-- R211, I14, D18 (log 8): a text image that fits becomes IMAGE; one that does not is rejected and IMAGE is kept. -/
def Obligations.TextImageBecomesImageOrIsRejected : Prop :=
  ∀ (s : State) (rest : List Move) (values : List Nat), s.schedule = .host (.loadText values) :: rest →
    (values.length ≤ s.memSize → (∀ v ∈ values, v < 4294967296) →
      ∃ t, step s = .next t ∧ t.image.map BitVec.toNat = values ∧ t = { s with image := t.image, schedule := rest }) ∧
    (s.memSize < values.length ∨ (∃ v ∈ values, 4294967296 ≤ v) → step s = .next { s with schedule := rest })

/-- R212, I14 (log 8): a binary image of a bad length is rejected and IMAGE is kept; of a good length it becomes IMAGE,
whose bytes in BYTE_ORDER are the image's. -/
def Obligations.BinaryImageBecomesImageOrIsRejected : Prop :=
  ∀ (s : State) (rest : List Move) (bytes : List Byte), s.schedule = .host (.loadBinary bytes) :: rest →
    (bytes.length % 4 = 0 → bytes.length ≤ 4 * s.memSize →
      ∃ t, step s = .next t ∧ bytesOfWords Config.byteOrder t.image = bytes ∧
        t = { s with image := t.image, schedule := rest }) ∧
    (bytes.length % 4 ≠ 0 ∨ 4 * s.memSize < bytes.length → step s = .next { s with schedule := rest })

/-- R213: the saved image is all of Memory, with PC in word 2 when Memory begins with the resume header; live Memory gets
the same patch exactly when SAVE_PATCH_LIVE holds, and nothing else changes. That the export is the function savedImage
of the state, and that the transition leaves the trace alone, is the model's reading (log 9). -/
def Obligations.SavePatchesTheResumeHeader : Prop :=
  ∀ (s : State) (rest : List Move), s.schedule = .host .save :: rest →
    s.savedImage.length = s.memSize ∧
    (∀ x, x < s.memSize →
      s.savedImage[x]? = some (if s.wordAt 0 = 1 ∧ s.wordAt 1 = 2 ∧ x = 2 then s.pc else s.wordAt x)) ∧
    ∃ t, step s = .next t ∧
      (∀ x, t.wordAt x = if s.wordAt 0 = 1 ∧ s.wordAt 1 = 2 ∧ Config.savePatchLive = true ∧ x = 2 then s.pc
        else s.wordAt x) ∧
      t = { s with mem := t.mem, schedule := rest }

/-- R212, R213, R261: a saved image (the export as log 9 reads it), loaded in the byte order it was saved in and reloaded,
gives the saved words back. -/
def Obligations.SavedImageReloads : Prop :=
  ∀ (s u : State) (o : ByteOrder), u.memSize = s.memSize →
    ∀ x, x < s.memSize → (State.onReload (State.loadBinary o u (s.savedBytes o))).wordAt x = s.savedWord x

/-- R213, R80: a program saved with the resume header and an aligned PC (the export as log 9 reads it), loaded, reloaded
and started, resumes at that PC after its one header JMP. -/
def Obligations.SavedProgramResumesAtItsPc : Prop :=
  ∀ (s u : State), s.hasResumeHeader = true → 4 ≤ s.memSize → s.pc.toNat % 4 = 0 → u.memSize = s.memSize →
    u.schedule = [.host (.loadBinary (s.savedBytes Config.byteOrder)), .host .reload, .host .start] →
    ∃ t, Sys2Proof.core.run 4 u = .next t ∧ t.pc = s.pc ∧ t.stepCount = 1 ∧ t.mode = .running .active

/-- R56: byte 4a + k of the byte view is bits 8k + 7 to 8k of word a in little order, bits 31 - 8k to 24 - 8k in big
order. -/
def Obligations.ByteViewFollowsTheByteOrder : Prop :=
  ∀ (s : State) (a k : Nat), a < s.memSize → k < 4 →
    s.byteAt .little (4 * a + k) = some ((s.wordAt a).extractLsb' (8 * k) 8) ∧
    s.byteAt .big (4 * a + k) = some ((s.wordAt a).extractLsb' (24 - 8 * k) 8)

/-- R54: the word any instruction writes into the framebuffer is seen in its pixel, no instruction changes another pixel,
and the same holds of the key code written to a blocked READ's address. -/
def Obligations.FramebufferSeesOrdinaryWrites : Prop :=
  (∀ (i : Instr) (s t : State), exec i s = .next t →
    (∀ (a v : Word) (j : Nat), t.stepCount = s.stepCount + 1 → storeOf s i = some (a, v) →
      j < s.frameBuffer.width * s.frameBuffer.height → a.toNat = s.frameBuffer.base + j → t.framePixel j = some v) ∧
    (∀ j, (∀ a, storeTarget s i = some a → a.toNat ≠ s.frameBuffer.base + j) → t.framePixel j = s.framePixel j)) ∧
  (∀ (s : State) (rest : List Move) (k a : Word) (r : Resume),
    s.schedule = .host (.key k) :: rest → s.mode = .blocked r a →
    ∃ t, step s = .next t ∧
      (∀ j, s.hasWord a → j < s.frameBuffer.width * s.frameBuffer.height → a.toNat = s.frameBuffer.base + j →
        t.framePixel j = some k) ∧
      (∀ j, a.toNat ≠ s.frameBuffer.base + j → t.framePixel j = s.framePixel j))

/-- R32, R230: the status view reports the mode and cause codes and the state's own values; `queue_len` is
⌈log2(Q_CAP + 1)⌉ bits wide, the least width that can hold Q_CAP, and is the queue's length wherever that is at most
Q_CAP, which EveryTransitionKeepsTheInvariant keeps (the absent address outside Blocked is log 10). -/
def Obligations.StatusViewReportsTheState : Prop :=
  ∀ s : State,
    s.status.mode.toNat ≤ 5 ∧ s.status.diagCause.toNat ≤ 5 ∧
    (s.status.yielded = true ↔ s.mode = .running .yielded) ∧
    (s.status.mode = 0 ↔ s.mode = .init) ∧ (s.status.mode = 1 ↔ ∃ p, s.mode = .running p) ∧
    (s.status.mode = 2 ↔ s.mode = .paused) ∧
    (∀ a, (s.status.mode = 3 ∧ s.status.blockedAddr = some a) ↔ s.mode = .blocked .one a) ∧
    (∀ a, (s.status.mode = 4 ∧ s.status.blockedAddr = some a) ↔ s.mode = .blocked .many a) ∧
    (s.status.mode = 5 ↔ s.mode = .halted) ∧
    (s.status.diagCause = 0 ↔ s.diag.cause = .none) ∧ (s.status.diagCause = 1 ↔ s.diag.cause = .haltInstr) ∧
    (s.status.diagCause = 2 ↔ s.diag.cause = .invalidOpcode) ∧
    (s.status.diagCause = 3 ↔ s.diag.cause = .divideByZero) ∧
    (s.status.diagCause = 4 ↔ s.diag.cause = .addressError) ∧
    (s.status.diagCause = 5 ↔ s.diag.cause = .misalignedTarget) ∧
    s.status.pc = s.pc ∧ s.status.stepCount = s.stepCount ∧ s.status.stepBudget = s.stepBudget ∧
    (∀ w, queueLenWidth s.queueCap ≤ w ↔ s.queueCap + 1 ≤ 2 ^ w) ∧
    (s.queue.length ≤ s.queueCap → s.status.queueLen.toNat = s.queue.length) ∧
    s.status.diagPc = s.diag.pc ∧ s.status.diagInfo = s.diag.info

/-! ### Reset and invariants -/

/-- R262: every element as the Init action leaves it, from every state and for every IMAGE (that it empties the trace is
log 7), and State.reset, which is so left for the empty IMAGE the model chose (log 4). -/
def Obligations.ResetState : Prop := (∀ s : State, s.initAction.AtReset) ∧ State.reset.AtReset

/-- The invariant of the block holds at State.reset. Its parameters clause rests on the default N and Q_CAP (log 2) and the
empty framebuffer (log 16) the model puts there, and its image clause on the empty IMAGE (log 4). -/
def Obligations.ResetMeetsTheInvariant : Prop := State.reset.Inv

/-- R20, R22, R25, R26, R29, R178: every transition keeps the invariant of the block, from every state that meets it. -/
def Obligations.EveryTransitionKeepsTheInvariant : Prop :=
  ∀ s t : State, s.Inv → step s = .next t → t.Inv

/-- R53, R264: no transition changes N, Q_CAP, SCREEN_BASE, W or H, and only an image load changes IMAGE. -/
def Obligations.ParametersSurviveEveryTransition : Prop :=
  ∀ s t : State, step s = .next t → t.memSize = s.memSize ∧ t.queueCap = s.queueCap ∧ t.frameBuffer = s.frameBuffer ∧
    (t.image = s.image ∨
      (∃ values rest, s.schedule = .host (.loadText values) :: rest) ∨
      (∃ bytes rest, s.schedule = .host (.loadBinary bytes) :: rest))

/-- R162 (the emptying by the Init action is log 7): a transition appends at most one output, or performs the Init
action. -/
def Obligations.AtMostOneOutputPerTransition : Prop :=
  ∀ s t : State, step s = .next t →
    t.trace = s.trace ∨ (∃ o, t.trace = s.trace ++ [o]) ∨
    (t.trace = [] ∧ ∃ e rest, s.schedule = .host e :: rest ∧
      (e = .reload ∨ (s.mode = .halted ∧ (e = .start ∨ e = .step))))

/-- R24, R95: StepCount grows by 1 in the executor step of a decoded instruction and nowhere else; such a step leaves it
alone only by taking a fault; and only the Init action resets it. -/
def Obligations.StepCountCountsRetirements : Prop :=
  ∀ s t : State, step s = .next t →
    (t.stepCount = s.stepCount + 1 ∧ s.execEnabled ∧ (∃ rest, s.blockTurn rest) ∧ s.pc.toNat + 3 < s.memSize ∧
      ∃ i, decode s.fetchWords = .ok i) ∨
    (t.stepCount = s.stepCount ∧ (s.execEnabled → (∃ rest, s.blockTurn rest) →
      t.mode = .halted ∧ t.diag.cause ≠ .none ∧ t.diag.cause ≠ .haltInstr)) ∨
    (t.stepCount = 0 ∧ ∃ e rest, s.schedule = .host e :: rest ∧
      (e = .reload ∨ (s.mode = .halted ∧ (e = .start ∨ e = .step))))

/-- R168, R177, R178: the queue changes only when a READ takes its head, a key is delivered outside Blocked, or the Init
action empties it. -/
def Obligations.QueueChangesOnlyInOrder : Prop :=
  ∀ s t : State, step s = .next t →
    t.queue = s.queue ∨
    (∃ k a, s.queue = k :: t.queue ∧ s.execEnabled ∧ decode s.fetchWords = .ok (.read a) ∧ t.at a = k) ∨
    (∃ k rest, s.schedule = .host (.key k) :: rest ∧ (∀ r a, s.mode ≠ .blocked r a) ∧
      ((s.queue.length ≠ s.queueCap ∧ t.queue = s.queue ++ [k]) ∨
        (s.queue.length = s.queueCap ∧ t.queue = s.queue.tail ++ [k]))) ∨
    (t.queue = [] ∧ ∃ e rest, s.schedule = .host e :: rest ∧
      (e = .reload ∨ (s.mode = .halted ∧ (e = .start ∨ e = .step))))

/-- R10, R54: wherever the invariant of the block holds, SCREEN_BASE + W*H ≤ N, so that the framebuffer is a sub-range of
Memory: pixel `k` is the word at SCREEN_BASE + k, for every `k` below W*H, and there is no other pixel. -/
def Obligations.FramebufferLiesInMemory : Prop :=
  ∀ s : State, s.Inv →
    s.frameBuffer.base + s.frameBuffer.width * s.frameBuffer.height ≤ s.memSize ∧
    ∀ k, s.framePixel k =
      if k < s.frameBuffer.width * s.frameBuffer.height then some (s.wordAt (s.frameBuffer.base + k)) else none
end

