-- ==== Sys2Proof/Laws/Bytes.lean ====
section
/-! SUPPORT. The byte view (spec/20_memory.md R56): words and their four bytes determine each other, in both orders. -/

namespace Sys2Proof.Machine

theorem bytesOfWord_wordOfBytes (o : ByteOrder) (b0 b1 b2 b3 : Byte) :
    bytesOfWord o (wordOfBytes o b0 b1 b2 b3) = [b0, b1, b2, b3] := by
  have := b0.isLt; have := b1.isLt; have := b2.isLt; have := b3.isLt
  cases o <;> simp only [bytesOfWord, wordOfBytes, List.cons.injEq, and_true] <;> refine ⟨?_, ?_, ?_, ?_⟩ <;>
    apply BitVec.eq_of_toNat_eq <;>
    simp only [BitVec.extractLsb'_toNat, BitVec.toNat_ofNat, Nat.shiftRight_eq_div_pow] <;> omega

theorem wordOfBytes_bytesOfWord (o : ByteOrder) (w : Word) (b0 b1 b2 b3 : Byte)
    (h : bytesOfWord o w = [b0, b1, b2, b3]) : wordOfBytes o b0 b1 b2 b3 = w := by
  have := w.isLt
  cases o <;> simp only [bytesOfWord, List.cons.injEq, and_true] at h <;> obtain ⟨rfl, rfl, rfl, rfl⟩ := h <;>
    apply BitVec.eq_of_toNat_eq <;>
    simp only [wordOfBytes, BitVec.extractLsb'_toNat, BitVec.toNat_ofNat, Nat.shiftRight_eq_div_pow] <;> omega

/-- A word has four bytes. -/
theorem bytesOfWord_four (o : ByteOrder) (w : Word) :
    ∃ b0 b1 b2 b3, bytesOfWord o w = [b0, b1, b2, b3] ∧ wordOfBytes o b0 b1 b2 b3 = w := by
  cases o <;> exact ⟨_, _, _, _, rfl, wordOfBytes_bytesOfWord _ w _ _ _ _ rfl⟩

theorem bytesOfWords_length (o : ByteOrder) (ws : List Word) : (bytesOfWords o ws).length = 4 * ws.length := by
  induction ws with
  | nil => rfl
  | cons w ws ih =>
    obtain ⟨b0, b1, b2, b3, h, -⟩ := bytesOfWord_four o w
    simp only [bytesOfWords, h, List.length_append, List.length_cons, List.length_nil, ih]
    omega

/-- Grouping the bytes of words gives the words. -/
theorem wordsOfBytes_bytesOfWords (o : ByteOrder) (ws : List Word) :
    wordsOfBytes o (bytesOfWords o ws) = .some ws := by
  induction ws with
  | nil => rfl
  | cons w ws ih =>
    obtain ⟨b0, b1, b2, b3, h, hw⟩ := bytesOfWord_four o w
    simp only [bytesOfWords, h, List.cons_append, List.nil_append, wordsOfBytes, ih, Option.map_some, hw]

/-- Bytes in a multiple of 4 group into words whose bytes they are. -/
theorem bytesOfWords_wordsOfBytes (o : ByteOrder) :
    ∀ (n : Nat) (bytes : List Byte), bytes.length = 4 * n →
      ∃ ws, wordsOfBytes o bytes = .some ws ∧ bytesOfWords o ws = bytes ∧ ws.length = n
  | 0, bytes, h => ⟨[], by simp [List.eq_nil_of_length_eq_zero h, wordsOfBytes, bytesOfWords]⟩
  | n + 1, b0 :: b1 :: b2 :: b3 :: rest, h => by
    obtain ⟨ws, h1, h2, h3⟩ := bytesOfWords_wordsOfBytes o n rest (by simp at h; omega)
    exact ⟨wordOfBytes o b0 b1 b2 b3 :: ws, by simp [wordsOfBytes, h1],
      by simp [bytesOfWords, bytesOfWord_wordOfBytes, h2], by simp [h3]⟩
  | _ + 1, [], h => by simp at h
  | _ + 1, [_], h => by simp at h; omega
  | _ + 1, [_, _], h => by simp at h; omega
  | _ + 1, [_, _, _], h => by simp at h; omega

end Sys2Proof.Machine
end

