-- ==== Sys2Proof/Laws/Memory.lean ====
section
/-! SUPPORT. Laws of Memory as data: a read after a write, and that every operation keeps the canonical form and the
range of listed addresses. -/

namespace Sys2Proof.Machine

/-! ### Reading -/

theorem Memory.read_erase (m : Memory) (a x : Nat) :
    (m.erase a).read x = if x = a then 0 else m.read x := by
  induction m with
  | nil => simp [Memory.erase, Memory.read]
  | cons cell m ih =>
    obtain ⟨k, w⟩ := cell
    by_cases hka : k = a
    · subst hka
      simp only [Memory.erase, if_true, ih, Memory.read]
      by_cases hx : x = k
      · simp [hx]
      · simp [hx, Ne.symm hx]
    · simp only [Memory.erase, hka, if_false, Memory.read, ih]
      by_cases hkx : k = x
      · subst hkx; simp [hka]
      · simp [hkx]

/-- On a memory that lists nothing at `a`, the new cell is the one a read of `a` finds. -/
theorem Memory.read_insert (m : Memory) (a x : Nat) (v : Word) (h : ∀ cell ∈ m, cell.1 ≠ a) :
    (m.insert a v).read x = if x = a then v else m.read x := by
  induction m with
  | nil => simp [Memory.insert, Memory.read, eq_comm]
  | cons cell m ih =>
    obtain ⟨k, w⟩ := cell
    have hk : k ≠ a := h (k, w) (by simp)
    have ih' := ih (fun c hc => h c (by simp [hc]))
    by_cases hak : a < k
    · simp [Memory.insert, hak, Memory.read, eq_comm]
    · simp only [Memory.insert, hak, if_false, Memory.read, ih']
      by_cases hkx : k = x
      · subst hkx; simp [hk]
      · simp [hkx]

theorem Memory.not_mem_erase (m : Memory) (a : Nat) : ∀ cell ∈ m.erase a, cell.1 ≠ a := by
  induction m with
  | nil => simp [Memory.erase]
  | cons cell m ih =>
    obtain ⟨k, w⟩ := cell
    by_cases hka : k = a
    · simpa [Memory.erase, hka] using ih
    · intro c hc
      simp only [Memory.erase, hka, if_false, List.mem_cons] at hc
      rcases hc with rfl | hc
      · exact hka
      · exact ih c hc

/-- A read after a write: the value written at that address, the old word everywhere else. -/
theorem Memory.read_write (m : Memory) (a x : Nat) (v : Word) :
    (m.write a v).read x = if x = a then v else m.read x := by
  unfold Memory.write
  split
  · rename_i hv; subst hv; exact Memory.read_erase m a x
  · rw [Memory.read_insert _ _ _ _ (Memory.not_mem_erase m a), Memory.read_erase]
    by_cases hx : x = a <;> simp [hx]

theorem Memory.read_placeAt (ws : List Word) (base x : Nat) :
    Memory.read (Memory.placeAt base ws) x = if base ≤ x then ws.getD (x - base) 0 else 0 := by
  induction ws generalizing base with
  | nil => simp [Memory.placeAt, Memory.read]
  | cons w ws ih =>
    have hx : (x = base) ∨ (x ≠ base) := em _
    unfold Memory.placeAt
    split
    · rename_i hw
      rw [ih]
      rcases hx with rfl | hx
      · simp [hw]
      · by_cases hlt : base ≤ x
        · have h1 : base + 1 ≤ x := by omega
          have h2 : x - base = (x - (base + 1)) + 1 := by omega
          simp [hlt, h1, h2]
        · have h1 : ¬ base + 1 ≤ x := by omega
          simp [hlt, h1]
    · simp only [Memory.read, ih]
      rcases hx with rfl | hx
      · simp
      · by_cases hlt : base ≤ x
        · have h1 : base + 1 ≤ x := by omega
          have h2 : x - base = (x - (base + 1)) + 1 := by omega
          simp [hlt, h1, h2, Ne.symm hx]
        · have h1 : ¬ base + 1 ≤ x := by omega
          simp [hlt, h1, Ne.symm hx]

/-! ### The canonical form -/

theorem Memory.risingFrom_mono {lo lo' : Nat} {m : Memory} (h : Memory.risingFrom lo' m = true) (hl : lo ≤ lo') :
    Memory.risingFrom lo m = true := by
  cases m with
  | nil => rfl
  | cons cell m =>
    obtain ⟨k, w⟩ := cell
    simp only [Memory.risingFrom, Bool.and_eq_true, decide_eq_true_eq] at h ⊢
    exact ⟨⟨by omega, h.1.2⟩, h.2⟩

theorem Memory.risingFrom_erase {lo : Nat} {m : Memory} (a : Nat) (h : Memory.risingFrom lo m = true) :
    Memory.risingFrom lo (m.erase a) = true := by
  induction m generalizing lo with
  | nil => rfl
  | cons cell m ih =>
    obtain ⟨k, w⟩ := cell
    simp only [Memory.risingFrom, Bool.and_eq_true, decide_eq_true_eq] at h
    by_cases hka : k = a
    · simp only [Memory.erase, hka, if_true]
      exact Memory.risingFrom_mono (ih h.2) (by omega)
    · simp only [Memory.erase, hka, if_false, Memory.risingFrom, Bool.and_eq_true, decide_eq_true_eq]
      exact ⟨h.1, ih h.2⟩

theorem Memory.risingFrom_insert {lo a : Nat} {v : Word} {m : Memory} (h : Memory.risingFrom lo m = true)
    (hlo : lo ≤ a) (hv : v ≠ 0) (hm : ∀ cell ∈ m, cell.1 ≠ a) : Memory.risingFrom lo (m.insert a v) = true := by
  induction m generalizing lo with
  | nil => simpa [Memory.insert, Memory.risingFrom, hlo] using hv
  | cons cell m ih =>
    obtain ⟨k, w⟩ := cell
    simp only [Memory.risingFrom, Bool.and_eq_true, decide_eq_true_eq] at h
    have hk : k ≠ a := hm (k, w) (by simp)
    by_cases hak : a < k
    · simp only [Memory.insert, hak, if_true, Memory.risingFrom, Bool.and_eq_true, decide_eq_true_eq]
      exact ⟨⟨hlo, hv⟩, ⟨by omega, h.1.2⟩, h.2⟩
    · simp only [Memory.insert, hak, if_false, Memory.risingFrom, Bool.and_eq_true, decide_eq_true_eq]
      exact ⟨h.1, ih h.2 (by omega) (fun c hc => hm c (by simp [hc]))⟩

/-- A write keeps the canonical form. -/
theorem Memory.wf_write {m : Memory} (a : Nat) (v : Word) (h : m.wf = true) : (m.write a v).wf = true := by
  unfold Memory.write
  split
  · exact Memory.risingFrom_erase a h
  · rename_i hv
    exact Memory.risingFrom_insert (Memory.risingFrom_erase a h) (Nat.zero_le a) hv (Memory.not_mem_erase m a)

theorem Memory.risingFrom_placeAt (base : Nat) (ws : List Word) :
    Memory.risingFrom base (Memory.placeAt base ws) = true := by
  induction ws generalizing base with
  | nil => rfl
  | cons w ws ih =>
    unfold Memory.placeAt
    split
    · exact Memory.risingFrom_mono (ih (base + 1)) (by omega)
    · rename_i hw
      simpa [Memory.risingFrom, ih (base + 1)] using hw

/-- Cleared Memory with an image placed in it is in canonical form. -/
theorem Memory.wf_placeAt (base : Nat) (ws : List Word) : Memory.wf (Memory.placeAt base ws) = true :=
  Memory.risingFrom_mono (Memory.risingFrom_placeAt base ws) (Nat.zero_le base)

theorem Memory.wf_nil : Memory.wf [] = true := rfl

/-! ### The range of listed addresses -/

theorem Memory.within_erase {m : Memory} {n : Nat} (a : Nat) (h : m.within n = true) : (m.erase a).within n = true := by
  induction m with
  | nil => rfl
  | cons cell m ih =>
    obtain ⟨k, w⟩ := cell
    simp only [Memory.within, List.all_cons, Bool.and_eq_true] at h ih ⊢
    by_cases hka : k = a
    · simp only [Memory.erase, hka, if_true]; exact ih h.2
    · simp only [Memory.erase, hka, if_false, List.all_cons, Bool.and_eq_true]
      exact ⟨h.1, ih h.2⟩

theorem Memory.within_insert {m : Memory} {n a : Nat} (v : Word) (h : m.within n = true) (ha : a < n) :
    (m.insert a v).within n = true := by
  induction m with
  | nil => simp [Memory.insert, Memory.within, ha]
  | cons cell m ih =>
    obtain ⟨k, w⟩ := cell
    simp only [Memory.within, List.all_cons, Bool.and_eq_true] at h ih
    by_cases hak : a < k
    · simp only [Memory.insert, hak, if_true, Memory.within, List.all_cons, Bool.and_eq_true, decide_eq_true_eq]
      exact ⟨ha, by simpa using h.1, h.2⟩
    · simp only [Memory.insert, hak, if_false, Memory.within, List.all_cons, Bool.and_eq_true]
      exact ⟨h.1, ih h.2⟩

/-- A write at an address that exists keeps every listed address below N. -/
theorem Memory.within_write {m : Memory} {n a : Nat} (v : Word) (h : m.within n = true) (ha : a < n) :
    (m.write a v).within n = true := by
  unfold Memory.write
  split
  · exact Memory.within_erase a h
  · exact Memory.within_insert v (Memory.within_erase a h) ha

theorem Memory.within_placeAt (base n : Nat) (ws : List Word) (h : base + ws.length ≤ n) :
    Memory.within (Memory.placeAt base ws) n = true := by
  induction ws generalizing base with
  | nil => rfl
  | cons w ws ih =>
    have hlen : base + 1 + ws.length ≤ n := by simp at h; omega
    unfold Memory.placeAt
    split
    · exact ih (base + 1) hlen
    · have hb : base < n := by simp at h; omega
      have := ih (base + 1) hlen
      simp only [Memory.within, List.all_cons, Bool.and_eq_true, decide_eq_true_eq] at this ⊢
      exact ⟨hb, this⟩

/-- Every word of an in-range, canonical memory beyond N reads 0. -/
theorem Memory.read_beyond {m : Memory} {n : Nat} (h : m.within n = true) (x : Nat) (hx : n ≤ x) : m.read x = 0 := by
  induction m with
  | nil => rfl
  | cons cell m ih =>
    obtain ⟨k, w⟩ := cell
    simp only [Memory.within, List.all_cons, Bool.and_eq_true, decide_eq_true_eq] at h ih
    have hk : k ≠ x := by have := h.1; omega
    simp [Memory.read, hk, ih h.2]

end Sys2Proof.Machine
end

