-- ==== Sys2Proof/Laws/State.lean ====
section
/-! SUPPORT. One lemma per field of State per shared update, each true by rfl, so that no proof unfolds a record update. -/

namespace Sys2Proof.Machine

/-! ### emit -/

@[simp] theorem State.emit_mem (s : State) (o : Output) : (s.emit o).mem = s.mem := rfl
@[simp] theorem State.emit_pc (s : State) (o : Output) : (s.emit o).pc = s.pc := rfl
@[simp] theorem State.emit_latches (s : State) (o : Output) : (s.emit o).latches = s.latches := rfl
@[simp] theorem State.emit_stepCount (s : State) (o : Output) : (s.emit o).stepCount = s.stepCount := rfl
@[simp] theorem State.emit_stepBudget (s : State) (o : Output) : (s.emit o).stepBudget = s.stepBudget := rfl
@[simp] theorem State.emit_mode (s : State) (o : Output) : (s.emit o).mode = s.mode := rfl
@[simp] theorem State.emit_queue (s : State) (o : Output) : (s.emit o).queue = s.queue := rfl
@[simp] theorem State.emit_diag (s : State) (o : Output) : (s.emit o).diag = s.diag := rfl
@[simp] theorem State.emit_trace (s : State) (o : Output) : (s.emit o).trace = s.trace ++ [o] := rfl
@[simp] theorem State.emit_memSize (s : State) (o : Output) : (s.emit o).memSize = s.memSize := rfl
@[simp] theorem State.emit_queueCap (s : State) (o : Output) : (s.emit o).queueCap = s.queueCap := rfl
@[simp] theorem State.emit_image (s : State) (o : Output) : (s.emit o).image = s.image := rfl
@[simp] theorem State.emit_frameBuffer (s : State) (o : Output) : (s.emit o).frameBuffer = s.frameBuffer := rfl
@[simp] theorem State.emit_schedule (s : State) (o : Output) : (s.emit o).schedule = s.schedule := rfl

/-! ### retire -/

@[simp] theorem State.retire_mem (s : State) (p : Word) : (s.retire p).mem = s.mem := rfl
@[simp] theorem State.retire_pc (s : State) (p : Word) : (s.retire p).pc = p := rfl
@[simp] theorem State.retire_latches (s : State) (p : Word) : (s.retire p).latches = s.latches := rfl
@[simp] theorem State.retire_stepCount (s : State) (p : Word) : (s.retire p).stepCount = s.stepCount + 1 := rfl
@[simp] theorem State.retire_stepBudget (s : State) (p : Word) : (s.retire p).stepBudget = s.stepBudget := rfl
@[simp] theorem State.retire_mode (s : State) (p : Word) : (s.retire p).mode = s.mode := rfl
@[simp] theorem State.retire_queue (s : State) (p : Word) : (s.retire p).queue = s.queue := rfl
@[simp] theorem State.retire_diag (s : State) (p : Word) : (s.retire p).diag = s.diag := rfl
@[simp] theorem State.retire_trace (s : State) (p : Word) : (s.retire p).trace = s.trace := rfl
@[simp] theorem State.retire_memSize (s : State) (p : Word) : (s.retire p).memSize = s.memSize := rfl
@[simp] theorem State.retire_queueCap (s : State) (p : Word) : (s.retire p).queueCap = s.queueCap := rfl
@[simp] theorem State.retire_image (s : State) (p : Word) : (s.retire p).image = s.image := rfl
@[simp] theorem State.retire_frameBuffer (s : State) (p : Word) : (s.retire p).frameBuffer = s.frameBuffer := rfl
@[simp] theorem State.retire_schedule (s : State) (p : Word) : (s.retire p).schedule = s.schedule := rfl

/-! ### haltWith -/

@[simp] theorem State.haltWith_mem (s : State) (c : Cause) (x : Word) : (s.haltWith c x).mem = s.mem := rfl
@[simp] theorem State.haltWith_pc (s : State) (c : Cause) (x : Word) : (s.haltWith c x).pc = s.pc := rfl
@[simp] theorem State.haltWith_latches (s : State) (c : Cause) (x : Word) : (s.haltWith c x).latches = s.latches := rfl
@[simp] theorem State.haltWith_stepCount (s : State) (c : Cause) (x : Word) : (s.haltWith c x).stepCount = s.stepCount := rfl
@[simp] theorem State.haltWith_stepBudget (s : State) (c : Cause) (x : Word) : (s.haltWith c x).stepBudget = s.stepBudget := rfl
@[simp] theorem State.haltWith_mode (s : State) (c : Cause) (x : Word) : (s.haltWith c x).mode = .halted := rfl
@[simp] theorem State.haltWith_queue (s : State) (c : Cause) (x : Word) : (s.haltWith c x).queue = s.queue := rfl
@[simp] theorem State.haltWith_diag (s : State) (c : Cause) (x : Word) : (s.haltWith c x).diag = ⟨c, s.pc, x⟩ := rfl
@[simp] theorem State.haltWith_trace (s : State) (c : Cause) (x : Word) : (s.haltWith c x).trace = s.trace ++ [.halted ⟨c, s.pc, x⟩] := rfl
@[simp] theorem State.haltWith_memSize (s : State) (c : Cause) (x : Word) : (s.haltWith c x).memSize = s.memSize := rfl
@[simp] theorem State.haltWith_queueCap (s : State) (c : Cause) (x : Word) : (s.haltWith c x).queueCap = s.queueCap := rfl
@[simp] theorem State.haltWith_image (s : State) (c : Cause) (x : Word) : (s.haltWith c x).image = s.image := rfl
@[simp] theorem State.haltWith_frameBuffer (s : State) (c : Cause) (x : Word) : (s.haltWith c x).frameBuffer = s.frameBuffer := rfl
@[simp] theorem State.haltWith_schedule (s : State) (c : Cause) (x : Word) : (s.haltWith c x).schedule = s.schedule := rfl

/-! ### runWith -/

@[simp] theorem State.runWith_mem (s : State) (b : Budget) : (s.runWith b).mem = s.mem := rfl
@[simp] theorem State.runWith_pc (s : State) (b : Budget) : (s.runWith b).pc = s.pc := rfl
@[simp] theorem State.runWith_latches (s : State) (b : Budget) : (s.runWith b).latches = s.latches := rfl
@[simp] theorem State.runWith_stepCount (s : State) (b : Budget) : (s.runWith b).stepCount = s.stepCount := rfl
@[simp] theorem State.runWith_stepBudget (s : State) (b : Budget) : (s.runWith b).stepBudget = b := rfl
@[simp] theorem State.runWith_mode (s : State) (b : Budget) : (s.runWith b).mode = .running .active := rfl
@[simp] theorem State.runWith_queue (s : State) (b : Budget) : (s.runWith b).queue = s.queue := rfl
@[simp] theorem State.runWith_diag (s : State) (b : Budget) : (s.runWith b).diag = s.diag := rfl
@[simp] theorem State.runWith_trace (s : State) (b : Budget) : (s.runWith b).trace = s.trace := rfl
@[simp] theorem State.runWith_memSize (s : State) (b : Budget) : (s.runWith b).memSize = s.memSize := rfl
@[simp] theorem State.runWith_queueCap (s : State) (b : Budget) : (s.runWith b).queueCap = s.queueCap := rfl
@[simp] theorem State.runWith_image (s : State) (b : Budget) : (s.runWith b).image = s.image := rfl
@[simp] theorem State.runWith_frameBuffer (s : State) (b : Budget) : (s.runWith b).frameBuffer = s.frameBuffer := rfl
@[simp] theorem State.runWith_schedule (s : State) (b : Budget) : (s.runWith b).schedule = s.schedule := rfl

/-! ### latch -/

@[simp] theorem State.latch_mem (s : State) (w : InstrWords) : (s.latch w).mem = s.mem := rfl
@[simp] theorem State.latch_pc (s : State) (w : InstrWords) : (s.latch w).pc = s.pc := rfl
@[simp] theorem State.latch_latches (s : State) (w : InstrWords) : (s.latch w).latches = ⟨w.op, w.a, w.b, w.c⟩ := rfl
@[simp] theorem State.latch_stepCount (s : State) (w : InstrWords) : (s.latch w).stepCount = s.stepCount := rfl
@[simp] theorem State.latch_stepBudget (s : State) (w : InstrWords) : (s.latch w).stepBudget = s.stepBudget := rfl
@[simp] theorem State.latch_mode (s : State) (w : InstrWords) : (s.latch w).mode = s.mode := rfl
@[simp] theorem State.latch_queue (s : State) (w : InstrWords) : (s.latch w).queue = s.queue := rfl
@[simp] theorem State.latch_diag (s : State) (w : InstrWords) : (s.latch w).diag = s.diag := rfl
@[simp] theorem State.latch_trace (s : State) (w : InstrWords) : (s.latch w).trace = s.trace := rfl
@[simp] theorem State.latch_memSize (s : State) (w : InstrWords) : (s.latch w).memSize = s.memSize := rfl
@[simp] theorem State.latch_queueCap (s : State) (w : InstrWords) : (s.latch w).queueCap = s.queueCap := rfl
@[simp] theorem State.latch_image (s : State) (w : InstrWords) : (s.latch w).image = s.image := rfl
@[simp] theorem State.latch_frameBuffer (s : State) (w : InstrWords) : (s.latch w).frameBuffer = s.frameBuffer := rfl
@[simp] theorem State.latch_schedule (s : State) (w : InstrWords) : (s.latch w).schedule = s.schedule := rfl

/-! ### initAction -/

@[simp] theorem State.initAction_mem (s : State) : (s.initAction).mem = Memory.placeAt 0 s.image := rfl
@[simp] theorem State.initAction_pc (s : State) : (s.initAction).pc = 0 := rfl
@[simp] theorem State.initAction_latches (s : State) : (s.initAction).latches = ⟨0, 0, 0, 0⟩ := rfl
@[simp] theorem State.initAction_stepCount (s : State) : (s.initAction).stepCount = 0 := rfl
@[simp] theorem State.initAction_stepBudget (s : State) : (s.initAction).stepBudget = .finite 0 := rfl
@[simp] theorem State.initAction_mode (s : State) : (s.initAction).mode = .init := rfl
@[simp] theorem State.initAction_queue (s : State) : (s.initAction).queue = [] := rfl
@[simp] theorem State.initAction_diag (s : State) : (s.initAction).diag = ⟨.none, 0, 0⟩ := rfl
@[simp] theorem State.initAction_trace (s : State) : (s.initAction).trace = [] := rfl
@[simp] theorem State.initAction_memSize (s : State) : (s.initAction).memSize = s.memSize := rfl
@[simp] theorem State.initAction_queueCap (s : State) : (s.initAction).queueCap = s.queueCap := rfl
@[simp] theorem State.initAction_image (s : State) : (s.initAction).image = s.image := rfl
@[simp] theorem State.initAction_frameBuffer (s : State) : (s.initAction).frameBuffer = s.frameBuffer := rfl
@[simp] theorem State.initAction_schedule (s : State) : (s.initAction).schedule = s.schedule := rfl

/-! ### The parameters -/

/-- R6, R8, R10 as inequalities. -/
theorem paramsOk_iff (n q : Nat) (f : FrameBuffer) :
    paramsOk n q f = true ↔ 4 ≤ n ∧ n ≤ 4294967296 ∧ 1 ≤ q ∧ f.base + f.width * f.height ≤ n := by
  simp [paramsOk, FrameBuffer.fits, and_assoc]

/-! ### Reading a word after an update of Memory -/

theorem State.wordAt_eq (s : State) (x : Nat) : s.wordAt x = s.mem.read x := rfl

end Sys2Proof.Machine
end

