-- ==== Sys2Proof/Laws/Ops.lean ====
section
/-! SUPPORT. What each shared operation answers, said once: the address check, the operand forms, and the end of an
executor step. -/

namespace Sys2Proof.Machine

/-! ### Access -/

theorem memRead_ok {s : State} {a : Word} (h : a.toNat < s.memSize) : memRead s a = .ok (s.wordAt a.toNat) := by
  simp [memRead, Nat.not_le.mpr h]

theorem memRead_error {s : State} {a : Word} (h : ¬ a.toNat < s.memSize) :
    memRead s a = .error ⟨.addressError, a⟩ := by
  simp [memRead, Nat.not_lt.mp h]

/-- All that a read can answer. -/
theorem memRead_cases (s : State) (a : Word) :
    (a.toNat < s.memSize ∧ memRead s a = .ok (s.wordAt a.toNat)) ∨
    (¬ a.toNat < s.memSize ∧ memRead s a = .error ⟨.addressError, a⟩) := by
  by_cases h : a.toNat < s.memSize
  · exact .inl ⟨h, memRead_ok h⟩
  · exact .inr ⟨h, memRead_error h⟩

theorem checkAddr_ok {s : State} {a : Word} (h : a.toNat < s.memSize) : checkAddr s a = .ok () := by
  simp [checkAddr, Nat.not_le.mpr h]

theorem checkAddr_error {s : State} {a : Word} (h : ¬ a.toNat < s.memSize) :
    checkAddr s a = .error ⟨.addressError, a⟩ := by
  simp [checkAddr, Nat.not_lt.mp h]

theorem memWrite_ok {s : State} {a v : Word} (h : a.toNat < s.memSize) :
    memWrite s a v = .ok { s with mem := s.mem.write a.toNat v } := by
  simp [memWrite, Nat.not_le.mpr h]

theorem memWrite_error {s : State} {a v : Word} (h : ¬ a.toNat < s.memSize) :
    memWrite s a v = .error ⟨.addressError, a⟩ := by
  simp [memWrite, Nat.not_lt.mp h]

/-- The word at `x` after a write at `a`. -/
theorem State.wordAt_write (s : State) (a : Nat) (v : Word) (x : Nat) :
    State.wordAt { s with mem := s.mem.write a v } x = if x = a then v else s.wordAt x :=
  Memory.read_write s.mem a x v

/-! ### Operand forms -/

theorem checkTarget_ok {t : Word} (h : t.toNat % 4 = 0) : checkTarget t = .ok t := by simp [checkTarget, h]

theorem checkTarget_error {t : Word} (h : ¬ t.toNat % 4 = 0) : checkTarget t = .error ⟨.misalignedTarget, t⟩ := by
  simp [checkTarget, h]

theorem jumpTarget_ok {s : State} {a : Word} (h : a.toNat < s.memSize) (ht : (s.wordAt a.toNat).toNat % 4 = 0) :
    jumpTarget s a = .ok (s.wordAt a.toNat) := by
  simp [jumpTarget, memRead_ok h, Except.bind, checkTarget_ok ht]

/-- The effect of an ALU instruction whose operands exist. -/
theorem binary_ok {s : State} {a b c : Word} (f : Word → Word → Word) (hb : b.toNat < s.memSize)
    (hc : c.toNat < s.memSize) :
    binary s a b c f = .ok (storeAndGoOn s a (f (s.wordAt b.toNat) (s.wordAt c.toNat))) := by
  simp [binary, direct, memRead_ok hb, memRead_ok hc, Except.bind]

theorem binary_error_left {s : State} {a b c : Word} (f : Word → Word → Word) (hb : ¬ b.toNat < s.memSize) :
    binary s a b c f = .error ⟨.addressError, b⟩ := by
  simp [binary, direct, memRead_error hb, Except.bind]

theorem binary_error_right {s : State} {a b c : Word} (f : Word → Word → Word) (hb : b.toNat < s.memSize)
    (hc : ¬ c.toNat < s.memSize) : binary s a b c f = .error ⟨.addressError, c⟩ := by
  simp [binary, direct, memRead_ok hb, memRead_error hc, Except.bind]

theorem dividing_ok {s : State} {a b c : Word} (f : Word → Word → Word) (hb : b.toNat < s.memSize)
    (hc : c.toNat < s.memSize) (h0 : s.wordAt c.toNat ≠ 0) :
    dividing s a b c f = .ok (storeAndGoOn s a (f (s.wordAt b.toNat) (s.wordAt c.toNat))) := by
  have h0' : ¬ s.wordAt c.toNat = 0#32 := h0
  simp [dividing, direct, memRead_ok hb, memRead_ok hc, Except.bind, h0']

theorem dividing_error_left {s : State} {a b c : Word} (f : Word → Word → Word) (hb : ¬ b.toNat < s.memSize) :
    dividing s a b c f = .error ⟨.addressError, b⟩ := by
  simp [dividing, direct, memRead_error hb, Except.bind]

theorem dividing_error_right {s : State} {a b c : Word} (f : Word → Word → Word) (hb : b.toNat < s.memSize)
    (hc : ¬ c.toNat < s.memSize) : dividing s a b c f = .error ⟨.addressError, c⟩ := by
  simp [dividing, direct, memRead_ok hb, memRead_error hc, Except.bind]

theorem dividing_error_zero {s : State} {a b c : Word} (f : Word → Word → Word) (hb : b.toNat < s.memSize)
    (hc : c.toNat < s.memSize) (h0 : s.wordAt c.toNat = 0) : dividing s a b c f = .error ⟨.divideByZero, c⟩ := by
  simp [dividing, direct, memRead_ok hb, memRead_ok hc, Except.bind, h0]

/-! ### The end of an executor step -/

theorem complete_error (s : State) (x : Raised) : s.complete (.error x) = .next (s.takeFault x) := rfl

/-- An effect with no write retires. -/
theorem complete_no_write (s : State) (p : Word) (ev : Event) :
    s.complete (.ok ⟨.none, p, ev⟩) = .next ((s.retire p).react ev) := rfl

/-- An effect that writes an existing word retires with the write. -/
theorem complete_write {s : State} {a v p : Word} {ev : Event} (h : a.toNat < s.memSize) :
    s.complete (.ok ⟨.some (a, v), p, ev⟩) =
      .next ((State.retire { s with mem := s.mem.write a.toNat v } p).react ev) := by
  simp [State.complete, State.commitWrite, memWrite_ok h]

/-- An effect that writes at or beyond N takes the address fault. -/
theorem complete_write_error {s : State} {a v p : Word} {ev : Event} (h : ¬ a.toNat < s.memSize) :
    s.complete (.ok ⟨.some (a, v), p, ev⟩) = .next (s.takeFault ⟨.addressError, a⟩) := by
  simp [State.complete, State.commitWrite, memWrite_error h]

/-- All that the end of an executor step can answer. -/
theorem complete_cases (s : State) (r : Except Raised Effect) :
    (∃ x, s.complete r = .next (s.takeFault x)) ∨
    (∃ e, r = .ok e ∧ e.write = .none ∧ s.complete r = .next ((s.retire e.nextPC).react e.event)) ∨
    (∃ e a v, r = .ok e ∧ e.write = .some (a, v) ∧ a.toNat < s.memSize ∧
      s.complete r = .next ((State.retire { s with mem := s.mem.write a.toNat v } e.nextPC).react e.event)) := by
  match r with
  | .error x => exact .inl ⟨x, rfl⟩
  | .ok ⟨.none, p, ev⟩ => exact .inr (.inl ⟨_, rfl, rfl, rfl⟩)
  | .ok ⟨.some (a, v), p, ev⟩ =>
    by_cases h : a.toNat < s.memSize
    · exact .inr (.inr ⟨_, a, v, rfl, rfl, h, complete_write h⟩)
    · exact .inl ⟨_, complete_write_error h⟩

/-- An effect that stores a word that exists and goes on. -/
theorem complete_storeAndGoOn {s : State} {a v : Word} (h : a.toNat < s.memSize) :
    s.complete (.ok (storeAndGoOn s a v)) =
      .next (State.retire { s with mem := s.mem.write a.toNat v } (s.pc + 4)) := by
  simp only [storeAndGoOn, complete_write h, State.react, State.pcPlus4]

theorem complete_storeAndGoOn_error {s : State} {a v : Word} (h : ¬ a.toNat < s.memSize) :
    s.complete (.ok (storeAndGoOn s a v)) = .next (s.takeFault ⟨.addressError, a⟩) := complete_write_error h

/-- The controller's reaction to an event changes neither PC, StepCount nor N (R165 to R170). -/
theorem react_keeps (s : State) (ev : Event) :
    (s.react ev).pc = s.pc ∧ (s.react ev).stepCount = s.stepCount ∧ (s.react ev).memSize = s.memSize := by
  cases ev with
  | keyboard a => cases hq : s.queue <;> simp [State.react, State.reactKeyboard, hq]
  | _ => exact ⟨rfl, rfl, rfl⟩

/-! ### The queue -/

theorem queuePush_length_le (cap : Nat) (q : List Word) (k : Word) (hcap : 1 ≤ cap) (h : q.length ≤ cap) :
    (queuePush cap q k).length ≤ cap := by
  unfold queuePush
  split
  · simp; omega
  · simp; omega

end Sys2Proof.Machine
end

