-- ==== Sys2Proof/Laws/Exec.lean ====
section
/-! SUPPORT. What an instruction can do, said once: it takes a fault, or it retires with its next PC, its event and at
most one write. -/

namespace Sys2Proof.Machine

/-- The event a retired instruction reports (R75, R90). -/
def eventOf (s : State) : Instr → Event
  | .halt => .halt
  | .draw => .draw
  | .read a => .keyboard a
  | .print a => .print (s.at a)
  | .jmp _ => .none
  | .jif _ _ => .none
  | .savepc _ => .none
  | .mov _ _ => .none
  | .load _ _ => .none
  | .store _ _ => .none
  | .add _ _ _ => .none
  | .sub _ _ _ => .none
  | .mul _ _ _ => .none
  | .div _ _ _ => .none
  | .mod _ _ _ => .none
  | .lt _ _ _ => .none
  | .nand _ _ => .none

/-- `exec i s` takes a fault with nothing committed. -/
def TakesAFault (i : Instr) (s : State) : Prop := ∃ x, exec i s = .next (s.takeFault x)

/-- `exec i s` retires with memory `m` before the controller's reaction. -/
def RetiresWith (i : Instr) (s : State) (m : Memory) : Prop :=
  exec i s = .next ((State.retire { s with mem := m } (nextPC s i)).react (eventOf s i))

/-- The memory an instruction leaves before the controller's reaction: as it was, where the instruction itself writes
nothing (a READ's key is the controller's write), or with its one word written, which exists; it then reports no event. -/
def OneWordWritten (i : Instr) (s : State) (m : Memory) : Prop :=
  (m = s.mem ∧ (storeOf s i = .none ∨ ∃ a, i = .read a)) ∨
  ∃ a v, storeOf s i = .some (a, v) ∧ eventOf s i = .none ∧ a.toNat < s.memSize ∧ m = s.mem.write a.toNat v

/-- All that an instruction that stores one word can do. -/
theorem store_cases {i : Instr} {s : State} {a v : Word} (hx : exec i s = s.complete (.ok (storeAndGoOn s a v)))
    (ht : storeOf s i = .some (a, v)) (hp : nextPC s i = s.pc + 4) (hev : eventOf s i = .none) :
    TakesAFault i s ∨ ∃ m, OneWordWritten i s m ∧ RetiresWith i s m := by
  by_cases h : a.toNat < s.memSize
  · refine .inr ⟨_, .inr ⟨a, v, ht, hev, h, rfl⟩, ?_⟩
    rw [RetiresWith, hx, hp, hev, complete_storeAndGoOn h]; rfl
  · exact .inl ⟨_, hx.trans (complete_storeAndGoOn_error h)⟩

theorem binary_cases {i : Instr} {s : State} {a b c : Word} {f : Word → Word → Word}
    (hx : exec i s = s.complete (binary s a b c f)) (ht : storeOf s i = .some (a, f (s.at b) (s.at c)))
    (hp : nextPC s i = s.pc + 4)
    (hev : eventOf s i = .none) : TakesAFault i s ∨ ∃ m, OneWordWritten i s m ∧ RetiresWith i s m := by
  by_cases hb : b.toNat < s.memSize
  · by_cases hc : c.toNat < s.memSize
    · rw [binary_ok f hb hc] at hx; exact store_cases hx ht hp hev
    · rw [binary_error_right f hb hc] at hx; exact .inl ⟨_, hx⟩
  · rw [binary_error_left f hb] at hx; exact .inl ⟨_, hx⟩

theorem dividing_cases {i : Instr} {s : State} {a b c : Word} {f : Word → Word → Word}
    (hx : exec i s = s.complete (dividing s a b c f)) (ht : storeOf s i = .some (a, f (s.at b) (s.at c)))
    (hp : nextPC s i = s.pc + 4)
    (hev : eventOf s i = .none) : TakesAFault i s ∨ ∃ m, OneWordWritten i s m ∧ RetiresWith i s m := by
  by_cases hb : b.toNat < s.memSize
  · by_cases hc : c.toNat < s.memSize
    · by_cases h0 : s.wordAt c.toNat = 0
      · rw [dividing_error_zero f hb hc h0] at hx; exact .inl ⟨_, hx⟩
      · rw [dividing_ok f hb hc h0] at hx; exact store_cases hx ht hp hev
    · rw [dividing_error_right f hb hc] at hx; exact .inl ⟨_, hx⟩
  · rw [dividing_error_left f hb] at hx; exact .inl ⟨_, hx⟩

/-- A jump through the word at `a`: it faults, or the target is aligned and PC goes there. -/
theorem jump_cases (s : State) (a : Word) :
    (∃ x, s.complete ((jumpTarget s a).map jumpTo) = .next (s.takeFault x)) ∨
    ((s.at a).toNat % 4 = 0 ∧ s.complete ((jumpTarget s a).map jumpTo) = .next (s.retire (s.at a))) := by
  by_cases ha : a.toNat < s.memSize
  · by_cases ht : (s.wordAt a.toNat).toNat % 4 = 0
    · exact .inr ⟨ht, by rw [jumpTarget_ok ha ht]; rfl⟩
    · exact .inl ⟨_, by simp only [jumpTarget, memRead_ok ha, Except.bind, checkTarget_error ht]; rfl⟩
  · exact .inl ⟨_, by simp only [jumpTarget, memRead_error ha]; rfl⟩

/-- All that an instruction can do. -/
theorem exec_cases (i : Instr) (s : State) :
    TakesAFault i s ∨ ∃ m, OneWordWritten i s m ∧ RetiresWith i s m := by
  cases i with
  | halt => exact .inr ⟨s.mem, .inl ⟨rfl, .inl rfl⟩, rfl⟩
  | jmp a =>
    rcases jump_cases s a with ⟨x, h⟩ | ⟨-, h⟩
    · exact .inl ⟨x, h⟩
    · exact .inr ⟨s.mem, .inl ⟨rfl, .inl rfl⟩, h⟩
  | jif a b =>
    rcases memRead_cases s b with ⟨-, hb⟩ | ⟨-, hb⟩
    · by_cases h0 : s.wordAt b.toNat = 0
      · have hx : exec (.jif a b) s = s.complete ((jumpTarget s a).map jumpTo) := by
          simp only [exec, execJif, direct, hb, Except.bind, h0, if_true]
        rcases jump_cases s a with ⟨x, h⟩ | ⟨-, h⟩
        · exact .inl ⟨x, hx.trans h⟩
        · refine .inr ⟨s.mem, .inl ⟨rfl, .inl rfl⟩, ?_⟩
          rw [RetiresWith, hx, h]
          simp only [nextPC, State.at, h0, if_true]; rfl
      · refine .inr ⟨s.mem, .inl ⟨rfl, .inl rfl⟩, ?_⟩
        rw [RetiresWith]
        simp only [exec, execJif, direct, hb, Except.bind, h0, if_false, nextPC, State.at]; rfl
    · exact .inl ⟨⟨.addressError, b⟩, by simp only [exec, execJif, direct, hb]; rfl⟩
  | savepc a => exact store_cases (a := a) (v := s.pc) rfl rfl rfl rfl
  | mov a b =>
    rcases memRead_cases s b with ⟨-, hb⟩ | ⟨-, hb⟩
    · exact store_cases (a := a) (v := s.wordAt b.toNat) (by simp only [exec, execMov, direct, hb]; rfl) rfl rfl rfl
    · exact .inl ⟨⟨.addressError, b⟩, by simp only [exec, execMov, direct, hb]; rfl⟩
  | load a b =>
    rcases memRead_cases s b with ⟨-, hb⟩ | ⟨-, hb⟩
    · rcases memRead_cases s (s.wordAt b.toNat) with ⟨-, hp⟩ | ⟨-, hp⟩
      · exact store_cases (a := a) (v := s.wordAt (s.wordAt b.toNat).toNat)
          (by simp only [exec, execLoad, indirect, hb, Except.bind, hp]; rfl) rfl rfl rfl
      · exact .inl ⟨⟨.addressError, s.wordAt b.toNat⟩, by simp only [exec, execLoad, indirect, hb, Except.bind, hp]; rfl⟩
    · exact .inl ⟨⟨.addressError, b⟩, by simp only [exec, execLoad, indirect, hb]; rfl⟩
  | store a b =>
    rcases memRead_cases s b with ⟨-, hb⟩ | ⟨-, hb⟩
    · rcases memRead_cases s a with ⟨-, ha⟩ | ⟨-, ha⟩
      · exact store_cases (a := s.wordAt b.toNat) (v := s.wordAt a.toNat)
          (by simp only [exec, execStore, direct, hb, Except.bind, ha]; rfl) rfl rfl rfl
      · exact .inl ⟨⟨.addressError, a⟩, by simp only [exec, execStore, direct, hb, Except.bind, ha]; rfl⟩
    · exact .inl ⟨⟨.addressError, b⟩, by simp only [exec, execStore, direct, hb]; rfl⟩
  | add a b c => exact binary_cases (f := aluAdd) rfl rfl rfl rfl
  | sub a b c => exact binary_cases (f := aluSub) rfl rfl rfl rfl
  | mul a b c => exact binary_cases (f := aluMul) rfl rfl rfl rfl
  | div a b c => exact dividing_cases (f := aluDiv) rfl rfl rfl rfl
  | mod a b c => exact dividing_cases (f := aluMod) rfl rfl rfl rfl
  | lt a b c => exact binary_cases (f := aluLt) rfl rfl rfl rfl
  | nand a b => exact binary_cases (f := aluNand) rfl rfl rfl rfl
  | draw => exact .inr ⟨s.mem, .inl ⟨rfl, .inl rfl⟩, rfl⟩
  | read a =>
    by_cases ha : a.toNat < s.memSize
    · exact .inr ⟨s.mem, .inl ⟨rfl, .inr ⟨a, rfl⟩⟩, by rw [RetiresWith]; simp only [exec, execRead, checkAddr_ok ha]; rfl⟩
    · exact .inl ⟨⟨.addressError, a⟩, by simp only [exec, execRead, checkAddr_error ha]; rfl⟩
  | print a =>
    rcases memRead_cases s a with ⟨-, ha⟩ | ⟨-, ha⟩
    · exact .inr ⟨s.mem, .inl ⟨rfl, .inl rfl⟩, by rw [RetiresWith]; simp only [exec, execPrint, direct, ha]; rfl⟩
    · exact .inl ⟨⟨.addressError, a⟩, by simp only [exec, execPrint, direct, ha]; rfl⟩

/-- A retired READ's address exists (R152). -/
theorem read_retires_exists {s : State} {a : Word} {m : Memory} (h : RetiresWith (.read a) s m) :
    a.toNat < s.memSize := by
  by_contra ha
  have hx : exec (.read a) s = .next (s.takeFault ⟨.addressError, a⟩) := by
    simp only [exec, execRead, checkAddr_error ha]; rfl
  rw [RetiresWith, hx] at h
  have hs := congrArg (fun o => match o with | Host.Outcome.next t => t.stepCount | _ => 0) h
  cases hq : s.queue <;> simp [State.takeFault, State.react, State.reactKeyboard, State.retire, hq, eventOf] at hs

/-- The words of Memory and the PC an instruction leaves, said once: a fault changes neither; a retired instruction has
its next PC, and wrote no word or the one word of `storeOf`, which exists. -/
theorem exec_words {i : Instr} {s t : State} (h : exec i s = .next t) :
    t.memSize = s.memSize ∧
    ((t.stepCount = s.stepCount ∧ t.mem = s.mem) ∨
     (t.stepCount = s.stepCount + 1 ∧ t.pc = nextPC s i ∧
      ((storeOf s i = .none ∧ t.mem = s.mem) ∨
       ∃ a v, storeOf s i = .some (a, v) ∧ a.toNat < s.memSize ∧ t.mem = s.mem.write a.toNat v))) := by
  rcases exec_cases i s with ⟨y, hx⟩ | ⟨m, hm, hx⟩
  · rw [hx] at h; cases h; exact ⟨rfl, .inl ⟨rfl, rfl⟩⟩
  · rw [hx] at h; cases h
    obtain ⟨hp, hc, hn⟩ := react_keeps (State.retire { s with mem := m } (nextPC s i)) (eventOf s i)
    refine ⟨hn, .inr ⟨hc, hp, ?_⟩⟩
    rcases hm with ⟨rfl, h0 | ⟨a, rfl⟩⟩ | ⟨a, v, ha, hev, hl, rfl⟩
    · refine .inl ⟨h0, ?_⟩
      cases i with
      | read a =>
        have hq : s.queue = [] := by simpa [storeOf] using h0
        simp [eventOf, State.react, State.reactKeyboard, State.retire, hq]
      | _ => rfl
    · cases hq : s.queue with
      | nil => exact .inl ⟨by simp [storeOf, hq], by simp [eventOf, State.react, State.reactKeyboard, State.retire]⟩
      | cons k ks =>
        exact .inr ⟨a, k, by simp [storeOf, hq], read_retires_exists hx,
          by simp [eventOf, State.react, State.reactKeyboard, State.retire]⟩
    · exact .inr ⟨a, v, ha, hl, by rw [hev]; rfl⟩

/-- An instruction that writes a word and retires goes on to the next in line (R94). -/
theorem nextPC_of_storeOf {i : Instr} {s : State} {a v : Word} (h : storeOf s i = .some (a, v)) :
    nextPC s i = s.pc + 4 := by
  cases i with
  | halt => cases h
  | jmp _ => cases h
  | jif _ _ => cases h
  | _ => rfl

/-- A retired instruction's next PC is a multiple of 4 when its PC was (R94, R110). -/
theorem nextPC_aligned {i : Instr} {s : State} {m : Memory} (h : RetiresWith i s m) (hp : s.pc.toNat % 4 = 0) :
    (nextPC s i).toNat % 4 = 0 := by
  have h4 : (s.pc + 4).toNat % 4 = 0 := by
    have : (4 : Word).toNat = 4 := rfl
    rw [BitVec.toNat_add, this]; omega
  have notFault : ∀ x t, exec i s = .next (State.retire t (nextPC s i)) → t.stepCount = s.stepCount →
      exec i s ≠ .next (s.takeFault x) := by
    intro x t h1 h2 h3
    rw [h1] at h3
    have hs := congrArg (fun o => match o with | Host.Outcome.next t => t.stepCount | _ => 0) h3
    simp [State.takeFault, h2] at hs
  cases i with
  | halt => exact hp
  | jmp a =>
    rcases jump_cases s a with ⟨x, hj⟩ | ⟨ht, -⟩
    · exact absurd hj (notFault x { s with mem := m } h rfl)
    · exact ht
  | jif a b =>
    by_cases h0 : s.at b = 0
    · rcases memRead_cases s b with ⟨-, hb⟩ | ⟨-, hb⟩
      · have hx : exec (.jif a b) s = s.complete ((jumpTarget s a).map jumpTo) := by
          have h0' : s.wordAt b.toNat = 0 := h0
          simp only [exec, execJif, direct, hb, Except.bind, h0', if_true]
        rcases jump_cases s a with ⟨x, hj⟩ | ⟨ht, -⟩
        · exact absurd (hx.trans hj) (notFault x { s with mem := m } h rfl)
        · simp only [nextPC, if_pos h0]; exact ht
      · have hx : exec (.jif a b) s = .next (s.takeFault ⟨.addressError, b⟩) := by
          simp only [exec, execJif, direct, hb]; rfl
        exact absurd hx (notFault _ { s with mem := m } h rfl)
    · simp only [nextPC, if_neg h0]; exact h4
  | savepc a => exact h4
  | mov a b => exact h4
  | load a b => exact h4
  | store a b => exact h4
  | add a b c => exact h4
  | sub a b c => exact h4
  | mul a b c => exact h4
  | div a b c => exact h4
  | mod a b c => exact h4
  | lt a b c => exact h4
  | nand a b => exact h4
  | draw => exact h4
  | read a => exact h4
  | print a => exact h4

end Sys2Proof.Machine
end

