-- ==== Sys2Proof/Laws/PerInstr.lean ====
section
/-! SUPPORT. The per-instruction family `EncodesItself`: an instruction's opcode is in range, and its four words decode to
it (spec/30_encoding.md R71, R72, R75). -/

namespace Sys2Proof.Laws.EncodesItself

/-- The instruction is well formed and decoding its encoding gives it back, whatever words follow it. -/
def Statement (i : Instr) : Prop :=
  i.wellFormed = true ∧ ∀ rest, decodeWords ((encode i).toList ++ rest) = .ok (i, rest)

theorem halt : Statement .halt := ⟨rfl, fun _ => rfl⟩
theorem jmp (a : Word) : Statement (.jmp a) := ⟨rfl, fun _ => rfl⟩
theorem jif (a b : Word) : Statement (.jif a b) := ⟨rfl, fun _ => rfl⟩
theorem savepc (a : Word) : Statement (.savepc a) := ⟨rfl, fun _ => rfl⟩
theorem mov (a b : Word) : Statement (.mov a b) := ⟨rfl, fun _ => rfl⟩
theorem load (a b : Word) : Statement (.load a b) := ⟨rfl, fun _ => rfl⟩
theorem store (a b : Word) : Statement (.store a b) := ⟨rfl, fun _ => rfl⟩
theorem add (a b c : Word) : Statement (.add a b c) := ⟨rfl, fun _ => rfl⟩
theorem sub (a b c : Word) : Statement (.sub a b c) := ⟨rfl, fun _ => rfl⟩
theorem mul (a b c : Word) : Statement (.mul a b c) := ⟨rfl, fun _ => rfl⟩
theorem div (a b c : Word) : Statement (.div a b c) := ⟨rfl, fun _ => rfl⟩
theorem mod (a b c : Word) : Statement (.mod a b c) := ⟨rfl, fun _ => rfl⟩
theorem lt (a b c : Word) : Statement (.lt a b c) := ⟨rfl, fun _ => rfl⟩
theorem nand (a b : Word) : Statement (.nand a b) := ⟨rfl, fun _ => rfl⟩
theorem draw : Statement .draw := ⟨rfl, fun _ => rfl⟩
theorem read (a : Word) : Statement (.read a) := ⟨rfl, fun _ => rfl⟩
theorem print (a : Word) : Statement (.print a) := ⟨rfl, fun _ => rfl⟩

end Sys2Proof.Laws.EncodesItself
end

