-- ==== Sys2Proof/Laws/Status.lean ====
section
/-! SUPPORT. The status view's `queue_len` (spec/10_state.md R32): every length the queue can have fits its width. -/

namespace Sys2Proof.Machine

/-- A length of at most Q_CAP is written whole in `queue_len`'s bits. -/
theorem lt_two_pow_queueLenWidth {n cap : Nat} (h : n ≤ cap) : n < 2 ^ queueLenWidth cap :=
  Nat.lt_of_le_of_lt h (Nat.le_pow_clog (by decide) (cap + 1))

theorem State.status_queueLen {s : State} (h : s.queue.length ≤ s.queueCap) :
    s.status.queueLen.toNat = s.queue.length := by
  rw [State.status, BitVec.toNat_ofNat, Nat.mod_eq_of_lt (lt_two_pow_queueLenWidth h)]

end Sys2Proof.Machine
end

