-- ==== Sys2Proof/Tests/Slice0.lean ====
section
/-! SUPPORT. Tests: what the well-formedness checks refuse, words written out from the spec's encodings, single steps from
spec/95_test_vectors.md (named in each comment), and a witness for the hypotheses of every statement that has some. -/

namespace Sys2Proof.Tests

open Sys2Proof Sys2Proof.Machine

/-! ### Well-formedness: one ill-formed term for each check -/

/-- Every instruction is well formed; there is no ill-formed term (R71, R73). -/
theorem test_instr_wellFormed : (Instr.print 0xFFFFFFFF).wellFormed = true ∧ Instr.halt.wellFormed = true := by decide

theorem test_paramsOk_refuses :
    paramsOk 3 5 ⟨0, 0, 0⟩ = false ∧ paramsOk 4294967297 5 ⟨0, 0, 0⟩ = false ∧ paramsOk 4 0 ⟨0, 0, 0⟩ = false ∧
      paramsOk 64 5 ⟨50, 5, 3⟩ = false ∧ paramsOk 4 1 ⟨0, 2, 2⟩ = true ∧ paramsOk 4294967296 5 ⟨4294967295, 1, 1⟩ = true := by
  decide

theorem test_imageFits_refuses : imageFits 2 [1, 2, 3] = false ∧ imageFits 3 [1, 2, 3] = true := by decide

theorem test_textImageOk_refuses :
    textImageOk 2 [1, 2, 3] = false ∧ textImageOk 3 [4294967296] = false ∧ textImageOk 3 [4294967295, 0, 1] = true := by
  decide

theorem test_binaryImageOk_refuses :
    binaryImageOk 1 [1, 2, 3] = false ∧ binaryImageOk 0 [1, 2, 3, 4] = false ∧ binaryImageOk 1 [1, 2, 3, 4] = true := by
  decide

theorem test_frameBuffer_fits_refuses :
    FrameBuffer.fits ⟨50, 5, 3⟩ 64 = false ∧ FrameBuffer.fits ⟨49, 5, 3⟩ 64 = true := by decide

/-! ### Decoding: words of the opcode map (R75), one for every constructor -/

theorem test_decode_control :
    decode ⟨0, 9, 9, 9⟩ = .ok .halt ∧ decode ⟨1, 2, 4, 0⟩ = .ok (.jmp 2) ∧
      decode ⟨2, 40, 41, 0⟩ = .ok (.jif 40 41) ∧ decode ⟨3, 57, 0, 0⟩ = .ok (.savepc 57) := by decide

theorem test_decode_data :
    decode ⟨4, 54, 52, 0⟩ = .ok (.mov 54 52) ∧ decode ⟨5, 36, 37, 0⟩ = .ok (.load 36 37) ∧
      decode ⟨6, 36, 38, 0⟩ = .ok (.store 36 38) := by decide

theorem test_decode_alu :
    decode ⟨7, 25, 25, 24⟩ = .ok (.add 25 25 24) ∧ decode ⟨8, 40, 41, 42⟩ = .ok (.sub 40 41 42) ∧
      decode ⟨9, 40, 41, 42⟩ = .ok (.mul 40 41 42) ∧ decode ⟨10, 40, 41, 42⟩ = .ok (.div 40 41 42) ∧
      decode ⟨11, 40, 41, 42⟩ = .ok (.mod 40 41 42) ∧ decode ⟨12, 40, 37, 41⟩ = .ok (.lt 40 37 41) ∧
      decode ⟨13, 40, 41, 200⟩ = .ok (.nand 40 41) := by decide

theorem test_decode_events :
    decode ⟨14, 0, 0, 0⟩ = .ok .draw ∧ decode ⟨15, 24, 0, 0⟩ = .ok (.read 24) ∧
      decode ⟨16, 24, 0, 0⟩ = .ok (.print 24) := by decide

/-- V-DEC-1, V-DEC-2; 0x10001 shares its low bits with JMP and is no JMP (R72). -/
theorem test_decode_invalid :
    decode ⟨17, 1, 2, 3⟩ = .error (.invalidOpcode 17) ∧
      decode ⟨0xFFFFFFFF, 0, 0, 0⟩ = .error (.invalidOpcode 0xFFFFFFFF) ∧
      decode ⟨0x10001, 0, 0, 0⟩ = .error (.invalidOpcode 0x10001) := by decide

theorem test_decodeWords_truncated : decodeWords [7, 1, 2] = .error .truncated := by decide

/-- SUB 40, 41, 42 with its first word in bits 31 to 0 and its last in bits 127 to 96; a row of 32 bits has operands 0. -/
theorem test_decodeTableWord :
    decodeTableWord 128 0x0000002A000000290000002800000008 = some (.sub 40 41 42) ∧
      decodeTableWord 32 16 = some (.print 0) ∧ decodeTableWord 32 17 = none := by decide

/-! ### Single steps -/

/-- 64 words, Running(Active), no budget, PC 0. -/
def mini (m : Memory) : State :=
  { State.reset with memSize := 64, mode := .running .active, stepBudget := .unlimited, mem := m }

/-- A field of the next state. -/
def after {α : Type} (f : State → α) : Host.Outcome State Fault Refusal → Option α
  | .next t => some (f t)
  | .fault _ => none
  | .refused _ => none

/-- What the step left at an address, and PC. -/
def wordAndPc (x : Nat) (t : State) : Word × Word := (t.wordAt x, t.pc)

/-- V-ADD-1, V-ADD-3. -/
theorem test_add_wraps :
    after (wordAndPc 40) (exec (.add 40 41 42) (mini [(41, 0xFFFFFFFF), (42, 1)])) = some (0, 4) ∧
      after (wordAndPc 40) (exec (.add 40 40 40) (mini [(40, 0x40000000)])) = some (0x80000000, 4) := by decide

/-- W1, V-SUB-2. -/
theorem test_sub_wraps :
    after (wordAndPc 40) (exec (.sub 40 41 42) (mini [(42, 1)])) = some (0xFFFFFFFF, 4) ∧
      after (wordAndPc 40) (exec (.sub 40 41 42) (mini [(41, 0x80000000), (42, 0xFFFFFFFF)])) =
        some (0x80000001, 4) := by decide

/-- V-MUL-5, V-MUL-2. -/
theorem test_mul_low_word :
    after (wordAndPc 40) (exec (.mul 40 41 42) (mini [(41, 0xDEADBEEF), (42, 0xFEEDFACE)])) = some (0xC1880A52, 4) ∧
      after (wordAndPc 40) (exec (.mul 40 41 42) (mini [(41, 0xFFFFFFFF), (42, 0xFFFFFFFF)])) = some (1, 4) := by
  decide

/-- V-DIV-2. -/
theorem test_div_floor :
    after (wordAndPc 40) (exec (.div 40 41 42) (mini [(41, 0xFFFFFFFF), (42, 0x10)])) = some (0x0FFFFFFF, 4) := by decide

/-- V-DIV-4. -/
theorem test_div_by_zero :
    after (fun t => (t.diag, t.wordAt 40, t.stepCount)) (exec (.div 40 41 42) (mini [(40, 3), (41, 7)])) =
      some (⟨.divideByZero, 0, 42⟩, 3, 0) := by decide

/-- V-MOD-1, V-MOD-3. -/
theorem test_mod :
    after (wordAndPc 40) (exec (.mod 40 41 42) (mini [(41, 0xFFFFFFFF), (42, 0x10)])) = some (0xF, 4) ∧
      after State.diag (exec (.mod 40 41 42) (mini [(41, 7)])) = some ⟨.divideByZero, 0, 42⟩ := by decide

/-- V-LT-3, V-LT-4. -/
theorem test_lt_unsigned :
    after (wordAndPc 40) (exec (.lt 40 41 42) (mini [(40, 9), (41, 0xFFFFFFFF), (42, 1)])) = some (0, 4) ∧
      after (wordAndPc 40) (exec (.lt 40 41 42) (mini [(42, 0x80000000)])) = some (1, 4) := by decide

/-- W2, V-NAND-1. -/
theorem test_nand :
    after (wordAndPc 40) (exec (.nand 40 41) (mini [(40, 0xFFFFFFFF), (41, 0x0F0F0F0F)])) = some (0xF0F0F0F0, 4) ∧
      after (wordAndPc 40) (exec (.nand 40 40) (mini [(40, 0x12345678)])) = some (0xEDCBA987, 4) := by decide

/-- V-ALU-E1; and with every operand missing B is the one reported (R235). -/
theorem test_alu_address_error :
    after State.diag (exec (.add 40 100 42) (mini [])) = some ⟨.addressError, 0, 100⟩ ∧
      after State.diag (exec (.add 102 100 101) (mini [])) = some ⟨.addressError, 0, 100⟩ := by decide

/-- V-MOV-1, V-MOV-3. -/
theorem test_mov :
    after (wordAndPc 40) (exec (.mov 40 41) (mini [(41, 0xCAFEBABE)])) = some (0xCAFEBABE, 4) ∧
      after (fun t => (t.diag, t.mem)) (exec (.mov 100 41) (mini [(41, 1)])) =
        some (⟨.addressError, 0, 100⟩, [(41, 1)]) := by decide

/-- V-MOV-4: the step runs from its latches. -/
theorem test_mov_over_itself :
    after (wordAndPc 2) (step (mini [(0, 4), (1, 2), (2, 41), (41, 50)])) = some (50, 4) := by decide

/-- V-LOAD-1, V-LOAD-2. -/
theorem test_load :
    after (wordAndPc 40) (exec (.load 40 41) (mini [(41, 50), (50, 0x99)])) = some (0x99, 4) ∧
      after State.diag (exec (.load 40 41) (mini [(41, 64)])) = some ⟨.addressError, 0, 64⟩ := by decide

/-- V-STORE-1, V-STORE-2. -/
theorem test_store :
    after (wordAndPc 50) (exec (.store 40 41) (mini [(40, 0x77), (41, 50)])) = some (0x77, 4) ∧
      after (fun t => (t.diag, t.mem)) (exec (.store 40 41) (mini [(40, 0x77), (41, 1000)])) =
        some (⟨.addressError, 0, 1000⟩, [(40, 0x77), (41, 1000)]) := by decide

/-- V-JMP-1, V-JMP-2. -/
theorem test_jmp :
    after State.pc (exec (.jmp 40) (mini [(40, 0x20)])) = some 0x20 ∧
      after (fun t => (t.diag, t.pc)) (exec (.jmp 40) (mini [(40, 0x41)])) =
        some (⟨.misalignedTarget, 0, 0x41⟩, 0) := by decide

/-- V-JIF-1, V-JIF-3. -/
theorem test_jif :
    after State.pc (exec (.jif 40 41) (mini [(40, 0x20)])) = some 0x20 ∧
      after State.pc (exec (.jif 1000 41) (mini [(41, 5)])) = some 4 := by decide

/-- V-JIF-4, V-JIF-5. -/
theorem test_jif_faults :
    after State.diag (exec (.jif 40 41) (mini [(40, 6)])) = some ⟨.misalignedTarget, 0, 6⟩ ∧
      after State.diag (exec (.jif 1000 41) (mini [])) = some ⟨.addressError, 0, 1000⟩ := by decide

/-- V-SAVEPC-1. -/
theorem test_savepc : after (wordAndPc 40) (exec (.savepc 40) { mini [] with pc := 0x20 }) = some (0x20, 0x24) := by
  decide

/-- V-HALT-1. -/
theorem test_halt :
    after (fun t => (t.mode, t.diag, t.pc, t.stepCount)) (step (mini [(1, 9), (2, 9), (3, 9)])) =
      some (.halted, ⟨.haltInstr, 0, 0⟩, 0, 1) := by decide

/-- V-DRAW-1. -/
theorem test_draw :
    after (fun t => (t.mode, t.pc, t.trace)) (exec .draw (mini [])) = some (.running .yielded, 4, [.draw]) := by decide

/-- V-READ-1, V-READ-3. -/
theorem test_read_blocks :
    after (fun t => (t.mode, t.pc, t.stepCount)) (exec (.read 40) { mini [] with stepBudget := .finite 1 }) =
        some (.blocked .one 40, 4, 1) ∧
      after State.diag (exec (.read 64) (mini [])) = some ⟨.addressError, 0, 64⟩ := by decide

/-- V-READ-2. -/
theorem test_read_queued :
    after (fun t => (t.wordAt 40, t.queue, t.stepCount)) (exec (.read 40) { mini [] with queue := [0x41] }) =
      some (0x41, [], 1) := by decide

/-- V-PRINT-1. -/
theorem test_print :
    after (fun t => (t.trace, t.pc)) (exec (.print 40) (mini [(40, 9)])) = some ([.print 9], 4) := by decide

/-- V-FETCH-1, V-FETCH-2. -/
theorem test_fetch_edge :
    after State.diag (step { mini [] with memSize := 62, pc := 60 }) = some ⟨.addressError, 60, 62⟩ ∧
      after State.diag (step { mini [] with pc := 60 }) = some ⟨.haltInstr, 60, 0⟩ := by decide

/-- V-DEC-2. -/
theorem test_invalid_opcode :
    after (fun t => (t.diag, t.stepCount)) (step (mini [(0, 0xFFFFFFFF)])) =
      some (⟨.invalidOpcode, 0, 0xFFFFFFFF⟩, 0) := by decide

/-- The next step from reset runs the placed word as its first instruction. -/
theorem test_withFetchWord :
    after (fun t => (t.pc, t.stepCount, t.trace)) (step (State.reset.withFetchWord 128 16)) =
      some (4, 1, [.print 16]) := by decide

/-! ### Controller and host -/

/-- V-CTL-3, V-CTL-1. -/
theorem test_commands :
    after State.mode (step { mini [] with mode := .blocked .one 24, schedule := [.host .start] }) =
        some (.blocked .many 24) ∧
      after State.mode (step { mini [] with mode := .paused, schedule := [.host .tick] }) = some .paused := by decide

/-- W5: the sixth key drops the oldest. -/
theorem test_sixth_key :
    after State.queue (step { mini [] with queue := [1, 2, 3, 4, 5], schedule := [.host (.key 6)] }) =
      some [2, 3, 4, 5, 6] := by decide

/-- Halfway through a program whose image is loaded, with a reload next. -/
def beforeReload : State :=
  { mini [(9, 9)] with pc := 8, stepCount := 3, queue := [7], image := [5, 0, 6], schedule := [.host .reload] }

/-- W9: reload. -/
theorem test_reload :
    after (fun t => (t.mode, t.pc, t.stepCount)) (step beforeReload) = some (.init, 0, 0) ∧
      after State.mem (step beforeReload) = some [(0, 5), (2, 6)] ∧ after State.queue (step beforeReload) = some [] := by
  decide

/-- R56: the word 0x04030201 in both orders. -/
theorem test_byte_orders :
    bytesOfWord .little 0x04030201 = [1, 2, 3, 4] ∧ bytesOfWord .big 0x04030201 = [4, 3, 2, 1] := by decide

/-- R213: the header's third word is saved as PC. -/
theorem test_saved_header :
    ({ mini [(0, 1), (1, 2), (2, 4)] with pc := 20 }).savedWord 2 = 20 ∧
      ({ mini [(0, 1), (1, 3), (2, 4)] with pc := 20 }).savedWord 2 = 4 := by decide

/-- R32: ⌈log2(Q_CAP + 1)⌉ for Q_CAP = 1, 3, 4, 5, 7, 8, by hand; a full queue of 5 is written whole. -/
theorem test_queue_len_width :
    [1, 3, 4, 5, 7, 8].map queueLenWidth = [1, 2, 3, 3, 3, 4] ∧
      ({ mini [] with queue := [1, 2, 3, 4, 5] } : State).status.queueLen.toNat = 5 := by decide

/-! ### Witnesses: each statement's hypotheses can be met, at the edges of their ranges -/

theorem witness_EncodeOfDecodedWords :
    decode ⟨0, 5, 5, 5⟩ = .ok .halt ∧ decode ⟨16, 63, 5, 5⟩ = .ok (.print 63) := by decide

theorem witness_OpcodesZeroToSixteenDecode :
    (InstrWords.mk 16 0 0 0).op.toNat ≤ 16 ∧ 17 ≤ (InstrWords.mk 17 0 0 0).op.toNat := by decide

theorem witness_IgnoredOperandWordsDoNotMatter :
    ∃ w w' : InstrWords, w ≠ w' ∧ w.op = w'.op ∧ (usesA w.op.toNat = true → w.a = w'.a) ∧
      (usesB w.op.toNat = true → w.b = w'.b) ∧ (usesC w.op.toNat = true → w.c = w'.c) :=
  ⟨⟨13, 1, 2, 3⟩, ⟨13, 1, 2, 4⟩, by decide⟩

/-- A PRINT in the last four words of Memory. -/
def lastPrint : State := { mini [(60, 16), (61, 63)] with pc := 60 }

theorem lastPrint_enabled : lastPrint.execEnabled := ⟨rfl, fun _ h => (nomatch h)⟩

theorem witness_StepRunsTheDecodedInstruction :
    lastPrint.blockTurn [] ∧ lastPrint.execEnabled ∧ lastPrint.pc.toNat + 3 < lastPrint.memSize ∧
      decode lastPrint.fetchWords = .ok (.print 63) :=
  ⟨by decide, lastPrint_enabled, by decide, by decide⟩

/-- As `mini []` with the fetch `k` words short. -/
def shortFetch (k : Nat) : State := { mini [] with memSize := 60 + k, pc := 60 }

theorem witness_FetchBeyondMemoryHalts :
    ∀ k, k < 4 → (shortFetch k).blockTurn [] ∧ (shortFetch k).execEnabled ∧
      (shortFetch k).memSize ≤ (shortFetch k).pc.toNat + k ∧
      (∀ j, j < k → (shortFetch k).pc.toNat + j < (shortFetch k).memSize) := by
  intro k _
  have hp : (shortFetch k).pc.toNat = 60 := rfl
  refine ⟨.inl ⟨rfl, rfl⟩, ⟨rfl, fun _ h => (nomatch h)⟩, ?_, fun j hj => ?_⟩
  · rw [hp]; exact Nat.le_refl _
  · rw [hp]; show 60 + j < 60 + k; omega

theorem witness_InvalidOpcodeHalts :
    (mini [(0, 17)]).blockTurn [] ∧ (mini [(0, 17)]).execEnabled ∧
      (mini [(0, 17)]).pc.toNat + 3 < (mini [(0, 17)]).memSize ∧ 17 ≤ ((mini [(0, 17)]).at (mini [(0, 17)]).pc).toNat :=
  ⟨by decide, ⟨rfl, fun _ h => (nomatch h)⟩, by decide, by decide⟩

theorem witness_BudgetCheckComesFirst :
    (State.blockTurn { mini [] with stepCount := 3, stepBudget := .finite 3 } []) ∧ 3 ≤ 3 ∧
      (State.execEnabled { mini [] with stepCount := 2, stepBudget := .finite 3 }) :=
  ⟨by decide, by decide, rfl, fun n h => (by cases h; decide)⟩

theorem witness_WaitingStatesNeedTheHost :
    (State.reset.mode ≠ .running .active ∧ State.reset.schedule = []) ∧
      (({ State.reset with schedule := [.block] } : State).mode ≠ .running .active ∧
        ({ State.reset with schedule := [.block] } : State).schedule = .block :: []) ∧
      ((mini []).mode = .running .active ∧ (mini []).blockTurn []) := by decide

theorem witness_JmpGoesThroughMemory :
    ((mini [(63, 60)]).hasWord 63 ∧ ((mini [(63, 60)]).at 63).toNat % 4 = 0) ∧ ¬ (mini []).hasWord 64 ∧
      ((mini [(63, 61)]).hasWord 63 ∧ ((mini [(63, 61)]).at 63).toNat % 4 ≠ 0) := by decide

theorem witness_JifBranchesOnZero :
    ((mini [(63, 1)]).hasWord 63 ∧ (mini [(63, 1)]).at 63 ≠ 0) ∧
      ((mini [(63, 60)]).hasWord 0 ∧ (mini [(63, 60)]).at 0 = 0 ∧ (mini [(63, 60)]).hasWord 63 ∧
        ((mini [(63, 60)]).at 63).toNat % 4 = 0) ∧
      ¬ (mini []).hasWord 64 ∧
      ((mini []).hasWord 63 ∧ (mini []).at 63 = 0 ∧ ¬ (mini []).hasWord 64) ∧
      ((mini [(63, 61)]).hasWord 0 ∧ (mini [(63, 61)]).at 0 = 0 ∧ (mini [(63, 61)]).hasWord 63 ∧
        ((mini [(63, 61)]).at 63).toNat % 4 ≠ 0) := by decide

/-- For SavepcStoresItsOwnAddress, ReadRetiresOrFaults and PrintOutputsTheWord. -/
theorem witness_one_address : (mini []).hasWord 63 ∧ ¬ (mini []).hasWord 64 := by decide

/-- For MovCopiesAWord and NandUsesTheOldValueAtA. -/
theorem witness_two_addresses :
    ((mini []).hasWord 63 ∧ (mini []).hasWord 0) ∧ ¬ (mini []).hasWord 64 ∧
      ((mini []).hasWord 63 ∧ ¬ (mini []).hasWord 64) := by decide

theorem witness_LoadReadsThroughThePointer :
    ((mini [(0, 63)]).hasWord 0 ∧ (mini [(0, 63)]).hasWord ((mini [(0, 63)]).at 0) ∧ (mini [(0, 63)]).hasWord 63) ∧
      ¬ (mini []).hasWord 64 ∧
      ((mini [(0, 64)]).hasWord 0 ∧ ¬ (mini [(0, 64)]).hasWord ((mini [(0, 64)]).at 0)) ∧
      ((mini [(0, 63)]).hasWord 0 ∧ (mini [(0, 63)]).hasWord ((mini [(0, 63)]).at 0) ∧
        ¬ (mini [(0, 63)]).hasWord 64) := by decide

theorem witness_StoreWritesThroughThePointer :
    ((mini [(0, 63)]).hasWord 0 ∧ (mini [(0, 63)]).hasWord 63 ∧ (mini [(0, 63)]).hasWord ((mini [(0, 63)]).at 0)) ∧
      ¬ (mini []).hasWord 64 ∧ ((mini []).hasWord 63 ∧ ¬ (mini []).hasWord 64) ∧
      ((mini [(0, 64)]).hasWord 0 ∧ (mini [(0, 64)]).hasWord 63 ∧
        ¬ (mini [(0, 64)]).hasWord ((mini [(0, 64)]).at 0)) := by decide

/-- For AddWrapsTheSum, SubWrapsTheDifference, MulKeepsTheLowWord and LtComparesUnsigned: the clauses of BinaryMeaning. -/
theorem witness_BinaryMeaning :
    ((mini []).hasWord 63 ∧ (mini []).hasWord 0 ∧ (mini []).hasWord 63) ∧ ¬ (mini []).hasWord 64 ∧
      ((mini []).hasWord 63 ∧ ¬ (mini []).hasWord 64) ∧
      ((mini []).hasWord 63 ∧ (mini []).hasWord 0 ∧ ¬ (mini []).hasWord 64) := by decide

/-- For DivGivesTheFloor and ModGivesTheRemainder: the clauses of DividingMeaning. -/
theorem witness_DividingMeaning :
    ((mini [(63, 1)]).hasWord 0 ∧ (mini [(63, 1)]).hasWord 63 ∧ (mini [(63, 1)]).at 63 ≠ 0 ∧
        (mini [(63, 1)]).hasWord 63) ∧
      ¬ (mini []).hasWord 64 ∧ ((mini []).hasWord 63 ∧ ¬ (mini []).hasWord 64) ∧
      ((mini []).hasWord 0 ∧ (mini []).hasWord 63 ∧ (mini []).at 63 = 0) ∧
      ((mini [(63, 1)]).hasWord 0 ∧ (mini [(63, 1)]).hasWord 63 ∧ (mini [(63, 1)]).at 63 ≠ 0 ∧
        ¬ (mini [(63, 1)]).hasWord 64) := by decide

theorem witness_ReadTakesTheOldestKey :
    (State.hasWord { mini [] with queue := [7] } 63) ∧ ({ mini [] with queue := [7] } : State).queue = 7 :: [] := by
  decide

theorem witness_ReadBlocksOnAnEmptyQueue : (mini []).hasWord 63 ∧ (mini []).queue = [] := by decide

theorem witness_OnlyTheStoreTargetChanges :
    (∃ t, exec (.savepc 63) (mini []) = .next t) ∧
      (∀ a, storeTarget (mini []) (.savepc 63) = some a → 62 ≠ a.toNat) :=
  ⟨⟨_, rfl⟩, by intro a h; cases h; decide⟩

theorem witness_FaultsArePrecise :
    (∃ t, step (mini [(0, 17)]) = .next t ∧ (mini [(0, 17)]).mode ≠ .halted ∧ t.mode = .halted ∧
      t.diag.cause ≠ .haltInstr) ∧
    (∃ t, exec (.print 64) (mini []) = .next t ∧ Instr.print 64 ≠ .halt ∧ (mini []).mode ≠ .halted ∧
      t.mode = .halted) :=
  ⟨⟨_, rfl, by decide, by decide, by decide⟩, _, rfl, by decide, by decide, by decide⟩

/-- For NextPcOfEveryInstruction and OnlyTheseEventsChangeTheMode. -/
theorem witness_exec_next : ∃ t, exec .draw (mini []) = .next t := ⟨_, rfl⟩

theorem witness_OutcomeDependsOnMemoryAndPc :
    ∃ s s' t t' : State, s ≠ s' ∧ s.mem = s'.mem ∧ s.memSize = s'.memSize ∧ s.pc = s'.pc ∧
      exec (.savepc 5) s = .next t ∧ exec (.savepc 5) s' = .next t' ∧ ∀ a, Instr.savepc 5 ≠ .read a :=
  ⟨mini [], { mini [] with queue := [1] }, _, _, by decide, rfl, rfl, rfl, rfl, rfl, fun _ h => (nomatch h)⟩

/-- A state in `m` with the host's input `e` next. -/
def inMode (m : Mode) (e : HostInput) : State := { mini [] with mode := m, schedule := [.host e] }

/-- A MOV onto the last word of the next instruction, which the step after fetches; and a READ given its queued key. -/
theorem witness_NextFetchSeesTheWrite :
    (∃ t, exec (.mov 7 63) (mini [(63, 9)]) = .next t ∧ t.stepCount = (mini [(63, 9)]).stepCount + 1 ∧
      storeOf (mini [(63, 9)]) (.mov 7 63) = some (7, 9) ∧ t.blockTurn [] ∧ t.execEnabled ∧
      t.pc.toNat + 3 < t.memSize) ∧
    (∃ t, exec (.read 4) { mini [] with queue := [5] } = .next t ∧ t.stepCount = 1 ∧
      storeOf { mini [] with queue := [5] } (.read 4) = some (4, 5)) ∧
    (inMode (.blocked .many 0) (.key 7)).schedule = .host (.key 7) :: [] ∧
    (inMode (.blocked .many 0) (.key 7)).mode = .blocked .many 0 ∧
    (∃ t, step (inMode (.blocked .many 0) (.key 7)) = .next t ∧ t.blockTurn [] ∧ t.execEnabled ∧
      t.pc.toNat + 3 < t.memSize) :=
  ⟨⟨_, rfl, rfl, by decide, .inl ⟨rfl, rfl⟩, ⟨rfl, fun _ h => (nomatch h)⟩, by decide⟩, ⟨_, rfl, rfl, by decide⟩, rfl, rfl,
    _, rfl, .inl ⟨rfl, rfl⟩, ⟨rfl, fun _ h => (nomatch h)⟩, by decide⟩

theorem witness_StartRunsWithoutABudget :
    (inMode (.blocked .one 5) .start).schedule = .host .start :: [] ∧
      (inMode (.blocked .one 5) .start).mode = .blocked .one 5 ∧ (inMode .halted .start).mode = .halted ∧
      (inMode .init .start).mode ≠ .halted ∧ (∀ r a, (inMode .init .start).mode ≠ .blocked r a) :=
  ⟨rfl, rfl, rfl, by decide, fun _ _ h => (nomatch h)⟩

theorem witness_StepRunsWithABudgetOfOne :
    (inMode (.blocked .many 5) .step).schedule = .host .step :: [] ∧
      (inMode (.blocked .many 5) .step).mode = .blocked .many 5 ∧ (inMode .halted .step).mode = .halted ∧
      (inMode .paused .step).mode ≠ .halted ∧ (∀ r a, (inMode .paused .step).mode ≠ .blocked r a) :=
  ⟨rfl, rfl, rfl, by decide, fun _ _ h => (nomatch h)⟩

/-- For ReloadAlwaysReturnsToInit and InitEmptiesTheTrace. -/
theorem witness_reload_and_restart :
    (inMode .paused .reload).schedule = .host .reload :: [] ∧
      ((inMode .halted .start).mode = .halted ∧ (inMode .halted .start).schedule = .host .start :: []) := by decide

theorem witness_TickFiresOnlyAPendingContinuation :
    (inMode (.running .yielded) .tick).schedule = .host .tick :: [] ∧
      (inMode (.running .yielded) .tick).mode = .running .yielded ∧
      (inMode (.running .active) .tick).mode ≠ .running .yielded := by decide

/-- Blocked at `lastPrint` on its operand word, with a key and the block's next two turns scheduled. -/
def blockedAtPrint (r : Resume) : State :=
  { lastPrint with mode := .blocked r 61, schedule := [.host (.key 7), .block, .block] }

/-- What the key makes of it, resuming with one step. -/
def resumedPrint : State :=
  { blockedAtPrint .one with
    mem := [(60, 16), (61, 7)], stepBudget := .finite 1, mode := .running .active, schedule := [.block, .block] }

theorem witness_KeyResumesABlockedRead :
    (∀ r, (blockedAtPrint r).schedule = .host (.key 7) :: .block :: .block :: [] ∧
      (blockedAtPrint r).mode = .blocked r 61) ∧
    step (blockedAtPrint .one) = .next resumedPrint ∧ resumedPrint.pc.toNat + 3 < resumedPrint.memSize ∧
      decode resumedPrint.fetchWords = .ok (.print 7) ∧
      ∃ t, exec (.print 7) (resumedPrint.fetched [.block]) = .next t ∧ t.mode = .running .active :=
  ⟨fun _ => ⟨rfl, rfl⟩, rfl, by decide, by decide, _, rfl, by decide⟩

theorem witness_KeyIsQueuedOutsideBlocked :
    (inMode .halted (.key 7)).schedule = .host (.key 7) :: [] ∧ (∀ r a, (inMode .halted (.key 7)).mode ≠ .blocked r a) ∧
      (inMode .halted (.key 7)).queue.length ≠ (inMode .halted (.key 7)).queueCap ∧
      (({ inMode .halted (.key 7) with queueCap := 1, queue := [3] } : State).queue = 3 :: [] ∧
        ({ inMode .halted (.key 7) with queueCap := 1, queue := [3] } : State).queue.length =
          ({ inMode .halted (.key 7) with queueCap := 1, queue := [3] } : State).queueCap) :=
  ⟨rfl, fun _ _ h => (nomatch h), by decide, by decide⟩

/-- Paused at `lastPrint`, with a `step` and the block's next two turns scheduled. -/
def pausedAtPrint : State := { lastPrint with mode := .paused, schedule := [.host .step, .block, .block] }

/-- What the `step` makes of it. -/
def steppingPrint : State :=
  { pausedAtPrint with stepBudget := .finite 1, mode := .running .active, schedule := [.block, .block] }

theorem witness_SingleStepRunsOneInstruction :
    pausedAtPrint.mode = .paused ∧ pausedAtPrint.schedule = .host .step :: .block :: .block :: [] ∧
      steppingPrint = { pausedAtPrint with
        stepBudget := .finite (pausedAtPrint.stepCount + 1), mode := .running .active,
        schedule := .block :: .block :: [] } ∧
      steppingPrint.pc.toNat + 3 < steppingPrint.memSize ∧ decode steppingPrint.fetchWords = .ok (.print 63) ∧
      ∃ t, exec (.print 63) (steppingPrint.fetched [.block]) = .next t ∧ t.mode = .running .active :=
  ⟨rfl, rfl, rfl, by decide, by decide, _, rfl, by decide⟩

theorem witness_TextImageBecomesImageOrIsRejected :
    (inMode .init (.loadText [4294967295])).schedule = .host (.loadText [4294967295]) :: [] ∧
      (([4294967295].length ≤ (mini []).memSize) ∧ ∀ v ∈ [4294967295], v < 4294967296) ∧
      ((mini []).memSize < (List.replicate 65 0).length) ∧ (∃ v ∈ [4294967296], 4294967296 ≤ v) := by decide

/-- A machine of four words that holds the resume header. -/
def headerState : State := { mini [(0, 1), (1, 2), (2, 4)] with memSize := 4, pc := 8 }

theorem witness_BinaryImageBecomesImageOrIsRejected :
    (inMode .init (.loadBinary [1, 2, 3, 4])).schedule = .host (.loadBinary [1, 2, 3, 4]) :: [] ∧
      (([1, 2, 3, 4] : List Byte).length % 4 = 0 ∧ ([1, 2, 3, 4] : List Byte).length ≤ 4 * (mini []).memSize) ∧
      ([1] : List Byte).length % 4 ≠ 0 ∧ 4 * headerState.memSize < (List.replicate 20 (0 : Byte)).length := by decide

theorem witness_SavePatchesTheResumeHeader :
    (inMode .paused .save).schedule = .host .save :: [] ∧ 63 < (inMode .paused .save).memSize := by decide

theorem witness_SavedImageReloads : State.reset.memSize = State.reset.memSize ∧ 2097151 < State.reset.memSize := by
  decide

theorem witness_SavedProgramResumesAtItsPc :
    ∃ u : State, headerState.hasResumeHeader = true ∧ 4 ≤ headerState.memSize ∧ headerState.pc.toNat % 4 = 0 ∧
      u.memSize = headerState.memSize ∧
      u.schedule = [.host (.loadBinary (headerState.savedBytes Config.byteOrder)), .host .reload, .host .start] :=
  ⟨{ headerState with
      schedule := [.host (.loadBinary (headerState.savedBytes Config.byteOrder)), .host .reload, .host .start] },
    by decide, by decide, by decide, rfl, rfl⟩

theorem witness_ByteViewFollowsTheByteOrder : 63 < (mini []).memSize ∧ 3 < 4 ∧ 0 < 4 := by decide

/-- `s` with a framebuffer of 5 by 3 pixels in the last 15 of its 64 words. -/
def framed (s : State) : State := { s with frameBuffer := ⟨49, 5, 3⟩ }

/-- A STORE into the last pixel, the pixel beside it; and a key into the last pixel. -/
theorem witness_FramebufferSeesOrdinaryWrites :
    14 < (framed (mini [])).frameBuffer.width * (framed (mini [])).frameBuffer.height ∧
    (63 : Word).toNat = (framed (mini [])).frameBuffer.base + 14 ∧
    (∃ t, exec (.store 0 1) (framed (mini [(0, 9), (1, 63)])) = .next t ∧ t.stepCount = 1 ∧
      storeOf (framed (mini [(0, 9), (1, 63)])) (.store 0 1) = some (63, 9) ∧
      ∀ a, storeTarget (framed (mini [(0, 9), (1, 63)])) (.store 0 1) = some a →
        a.toNat ≠ (framed (mini [])).frameBuffer.base + 13) ∧
    (framed (inMode (.blocked .one 63) (.key 7))).schedule = .host (.key 7) :: [] ∧
    (framed (inMode (.blocked .one 63) (.key 7))).mode = .blocked .one 63 ∧
    (framed (inMode (.blocked .one 63) (.key 7))).hasWord 63 :=
  ⟨by decide, by decide, ⟨_, rfl, rfl, by decide, by intro a h; cases h; decide⟩, rfl, rfl, by decide⟩

theorem witness_StatusViewReportsTheState :
    ({ mini [] with queue := [1, 2, 3, 4, 5] } : State).queue.length ≤
      ({ mini [] with queue := [1, 2, 3, 4, 5] } : State).queueCap := by decide

/-- A running state other than reset that meets the invariant, and its next state: for EveryTransitionKeepsTheInvariant. -/
theorem witness_EveryTransitionKeepsTheInvariant : (mini [(0, 14)]).Inv ∧ ∃ t, step (mini [(0, 14)]) = .next t :=
  ⟨⟨by decide, by decide, by decide, by decide, by decide, by decide, fun _ _ h => (nomatch h), by decide,
    fun _ _ _ h => (nomatch h)⟩, _, rfl⟩

/-- A framebuffer that ends where Memory ends; its last pixel, and the first number that is none. -/
theorem witness_FramebufferLiesInMemory :
    (framed (mini [(63, 9)])).Inv ∧
      14 < (framed (mini [(63, 9)])).frameBuffer.width * (framed (mini [(63, 9)])).frameBuffer.height ∧
      ¬ 15 < (framed (mini [(63, 9)])).frameBuffer.width * (framed (mini [(63, 9)])).frameBuffer.height :=
  ⟨⟨by decide, by decide, by decide, by decide, by decide, by decide, fun _ _ h => (nomatch h), by decide,
    fun _ _ _ h => (nomatch h)⟩, by decide, by decide⟩

/-- For ParametersSurviveEveryTransition, AtMostOneOutputPerTransition, StepCountCountsRetirements and
QueueChangesOnlyInOrder: a block transition and a host transition. -/
theorem witness_step_next : (∃ t, step (mini []) = .next t) ∧ ∃ t, step (inMode .halted .reload) = .next t :=
  ⟨⟨_, rfl⟩, _, rfl⟩

end Sys2Proof.Tests
end

section
/-! PROOFS. The scope family (spec/00_scope.md): the framebuffer under the invariant. -/

namespace Sys2Proof.Machine

/-- R10, from the parameter ranges the invariant keeps. -/
theorem State.Inv.frameBuffer_end_le_memSize {s : State} (h : s.Inv) :
    s.frameBuffer.base + s.frameBuffer.width * s.frameBuffer.height ≤ s.memSize := by
  obtain ⟨-, -, -, hframe⟩ := (paramsOk_iff _ _ _).mp h.params
  exact hframe

/-- R54: where the framebuffer ends within Memory, the bound on W*H alone decides whether `k` is a pixel. -/
theorem State.framePixel_of_frameBuffer_end_le {s : State}
    (hend : s.frameBuffer.base + s.frameBuffer.width * s.frameBuffer.height ≤ s.memSize) (k : Nat) :
    s.framePixel k =
      if k < s.frameBuffer.width * s.frameBuffer.height then some (s.wordAt (s.frameBuffer.base + k)) else none := by
  unfold State.framePixel
  by_cases hk : k < s.frameBuffer.width * s.frameBuffer.height
  · have hmem : s.frameBuffer.base + k < s.memSize := (Nat.add_lt_add_left hk _).trans_le hend
    rw [if_pos ⟨hk, hmem⟩, if_pos hk]
  · rw [if_neg fun h => hk h.1, if_neg hk]

/-- Settles O60: the invariant's parameter ranges place the framebuffer inside Memory, so that every `k` below W*H is
the number of a pixel. -/
theorem framebufferLiesInMemory : Obligations.FramebufferLiesInMemory := by
  intro s hinv
  have hend := hinv.frameBuffer_end_le_memSize
  exact ⟨hend, State.framePixel_of_frameBuffer_end_le hend⟩

end Sys2Proof.Machine
end

section
/-! PROOFS. What one transition can do, said once: whose turn it is and the budget check (spec/45_execution_controller.md
R160, R163), the executor step (spec/40_instruction_cycle.md R91, R92, R97) and the host inputs (spec/45 R171 to R177,
spec/46_host_interface.md R211 to R213). -/

namespace Sys2Proof.Machine

/-! ### The block's turn -/

theorem State.execEnabled_iff (s : State) :
    s.execEnabled ↔ s.mode = .running .active ∧ s.budgetReached = false := by
  unfold State.execEnabled State.budgetReached
  cases s.stepBudget with
  | finite n => simp
  | unlimited => simp

/-- R163, R164: the internal transition is the break or, where the budget is not reached, the executor step. -/
theorem State.internal_cases {s t : State} (h : s.internal = .next t) :
    (s.mode = .running .active ∧ ¬ s.execEnabled ∧ t = s.takeBreak) ∨ (s.execEnabled ∧ s.execStep = .next t) := by
  unfold State.internal State.isActive at h
  rw [State.execEnabled_iff]
  by_cases hm : s.mode = .running .active
  · cases hb : s.budgetReached with
    | true =>
      simp only [hm, hb, decide_true, if_true, Host.Outcome.next.injEq] at h
      exact .inl ⟨hm, by simp, h.symm⟩
    | false => exact .inr ⟨⟨hm, rfl⟩, by simpa [hm, hb] using h⟩
  · simp [hm] at h

/-- All that a transition can be (R160): a turn that passes, the break, an executor step, or a host input. -/
theorem step_cases {s t : State} (h : step s = .next t) :
    (∃ rest, s.schedule = .block :: rest ∧ s.mode ≠ .running .active ∧ t = { s with schedule := rest }) ∨
    (∃ rest, s.blockTurn rest ∧ s.mode = .running .active ∧ ¬ s.execEnabled ∧
      t = State.takeBreak { s with schedule := rest }) ∨
    (∃ rest, s.blockTurn rest ∧ s.execEnabled ∧ State.execStep { s with schedule := rest } = .next t) ∨
    (∃ e rest, s.schedule = .host e :: rest ∧ t = State.onInput { s with schedule := rest } e) := by
  have ofInternal : ∀ rest, s.blockTurn rest → State.internal { s with schedule := rest } = .next t →
      (∃ rest, s.blockTurn rest ∧ s.mode = .running .active ∧ ¬ s.execEnabled ∧
        t = State.takeBreak { s with schedule := rest }) ∨
      (∃ rest, s.blockTurn rest ∧ s.execEnabled ∧ State.execStep { s with schedule := rest } = .next t) := by
    intro rest hturn hi
    rcases State.internal_cases hi with ⟨hm, hne, ht⟩ | ⟨he, hx⟩
    · exact .inl ⟨rest, hturn, hm, hne, ht⟩
    · exact .inr ⟨rest, hturn, he, hx⟩
  unfold step State.advance at h
  split at h
  · next hs =>
    have hi : State.internal { s with schedule := [] } = .next t := by rw [← hs]; exact h
    rcases ofInternal [] (.inl ⟨hs, rfl⟩) hi with hbreak | hexec
    · exact .inr (.inl hbreak)
    · exact .inr (.inr (.inl hexec))
  · next rest hs =>
    by_cases hm : s.mode = .running .active
    · simp only [State.isActive, hm, decide_true, if_true] at h
      have hi : State.internal { s with schedule := rest } = .next t := by rw [← hm] at h; exact h
      rcases ofInternal rest (.inr hs) hi with hbreak | hexec
      · exact .inr (.inl hbreak)
      · exact .inr (.inr (.inl hexec))
    · simp only [State.isActive, hm, decide_false, Bool.false_eq_true, if_false, Host.Outcome.next.injEq] at h
      exact .inl ⟨rest, hs, hm, h.symm⟩
  · next e rest hs =>
    cases h
    exact .inr (.inr (.inr ⟨e, rest, hs, rfl⟩))

/-! ### The executor step -/

theorem FaultCause.toCause_ne_none (c : FaultCause) : c.toCause ≠ .none := by cases c <;> decide

theorem FaultCause.toCause_ne_haltInstr (c : FaultCause) : c.toCause ≠ .haltInstr := by cases c <;> decide

/-- R91: where the fetch raises no fault, the last of its four words exists, and so do they all. -/
theorem State.fetchFault_eq_none {s : State} (h : s.fetchFault = .none) : s.pc.toNat + 3 < s.memSize := by
  unfold State.fetchFault at h
  split_ifs at h with h0 h1 h2 h3
  exact Nat.not_le.mp h3

/-- `t` is what `s` becomes when `i` retires with the controller's reaction to its event. -/
def RetiresTo (i : Instr) (s t : State) : Prop :=
  ∃ m, OneWordWritten i s m ∧ RetiresWith i s m ∧
    t = (State.retire { s with mem := m } (nextPC s i)).react (eventOf s i)

theorem exec_next_cases {i : Instr} {s t : State} (h : exec i s = .next t) :
    (∃ x, t = s.takeFault x) ∨ RetiresTo i s t := by
  rcases exec_cases i s with ⟨x, hx⟩ | ⟨m, hm, hx⟩
  · exact .inl ⟨x, Host.Outcome.next.inj (h.symm.trans hx)⟩
  · exact .inr ⟨m, hm, hx, Host.Outcome.next.inj (h.symm.trans hx)⟩

/-- A retired instruction counts once (R95). -/
theorem RetiresTo.stepCount {i : Instr} {s t : State} (h : RetiresTo i s t) : t.stepCount = s.stepCount + 1 := by
  obtain ⟨m, -, -, rfl⟩ := h
  exact (react_keeps _ _).2.1

/-- R168, R169: a READ takes the oldest key, or blocks where none is queued. -/
theorem State.reactKeyboard_cases (s : State) (a : Word) :
    (∃ k rest, s.queue = k :: rest ∧ s.reactKeyboard a = { s with queue := rest, mem := s.mem.write a.toNat k }) ∨
    (s.queue = [] ∧ s.reactKeyboard a =
      State.emit { s with mode := .blocked s.stepBudget.resume a } (.blocked a)) := by
  unfold State.reactKeyboard
  split
  · next k rest hq => exact .inl ⟨k, rest, hq, rfl⟩
  · next hq => exact .inr ⟨hq, rfl⟩

/-- All that an executor step can do: a fault before or after the latches are loaded, or the decoded instruction
retires. -/
theorem State.execStep_cases {s t : State} (h : s.execStep = .next t) :
    (∃ x, t = s.takeFault x ∨ t = (s.latch s.fetchWords).takeFault x) ∨
    (s.pc.toNat + 3 < s.memSize ∧ ∃ i, decode s.fetchWords = .ok i ∧ RetiresTo i (s.latch s.fetchWords) t) := by
  unfold State.execStep at h
  split at h
  · next x hf => exact .inl ⟨_, .inl (Host.Outcome.next.inj h).symm⟩
  · next hf =>
    unfold State.execLatched at h
    split at h
    · next i hi =>
      rcases exec_next_cases h with ⟨x, hx⟩ | hret
      · exact .inl ⟨x, .inr hx⟩
      · exact .inr ⟨State.fetchFault_eq_none hf, i, hi, hret⟩
    · next err herr => exact .inl ⟨_, .inr (Host.Outcome.next.inj h).symm⟩

/-! ### The host inputs -/

theorem State.onStart_cases (s : State) :
    (s.mode = .halted ∧ s.onStart = s.initAction.runWith .unlimited) ∨
    (∃ r a, s.mode = .blocked r a ∧ s.onStart = { s with mode := .blocked .many a }) ∨
    (s.mode ≠ .halted ∧ s.onStart = s.runWith .unlimited) := by
  unfold State.onStart
  cases hm : s.mode with
  | halted => exact .inl ⟨rfl, rfl⟩
  | blocked r a => exact .inr (.inl ⟨r, a, rfl, rfl⟩)
  | _ => exact .inr (.inr ⟨nofun, rfl⟩)

theorem State.onStep_cases (s : State) :
    (s.mode = .halted ∧ s.onStep = s.initAction.runWith s.initAction.oneMore) ∨
    (∃ r a, s.mode = .blocked r a ∧ s.onStep = { s with mode := .blocked .one a }) ∨
    (s.mode ≠ .halted ∧ s.onStep = s.runWith s.oneMore) := by
  unfold State.onStep
  cases hm : s.mode with
  | halted => exact .inl ⟨rfl, rfl⟩
  | blocked r a => exact .inr (.inl ⟨r, a, rfl, rfl⟩)
  | _ => exact .inr (.inr ⟨nofun, rfl⟩)

theorem State.onKey_cases (s : State) (k : Word) :
    (∃ r a, s.mode = .blocked r a ∧
      s.onKey k = State.runWith { s with mem := s.mem.write a.toNat k } (s.resumeBudget r)) ∨
    ((∀ r a, s.mode ≠ .blocked r a) ∧ s.onKey k = { s with queue := queuePush s.queueCap s.queue k }) := by
  unfold State.onKey
  cases hm : s.mode with
  | blocked r a => exact .inl ⟨r, a, rfl, rfl⟩
  | _ => exact .inr ⟨nofun, rfl⟩

theorem State.onTick_cases (s : State) :
    (s.mode = .running .yielded ∧ s.onTick = { s with mode := .running .active }) ∨ s.onTick = s := by
  unfold State.onTick
  split
  · next hm => exact .inl ⟨hm, rfl⟩
  · exact .inr rfl

/-- R211: a load keeps IMAGE or puts one that fits in its place. -/
theorem State.loadText_cases (s : State) (values : List Nat) :
    s.loadText values = s ∨ ∃ ws, imageFits s.memSize ws = true ∧ s.loadText values = { s with image := ws } := by
  unfold State.loadText
  split
  · next hok =>
    have hlen : values.length ≤ s.memSize := by
      simp only [textImageOk, Bool.and_eq_true, decide_eq_true_eq] at hok
      exact hok.1
    exact .inr ⟨_, by simpa [imageFits] using hlen, rfl⟩
  · exact .inl rfl

/-- R212: a load keeps IMAGE or puts one that fits in its place: 4N bytes are N words. -/
theorem State.loadBinary_cases (o : ByteOrder) (s : State) (bytes : List Byte) :
    s.loadBinary o bytes = s ∨
      ∃ ws, imageFits s.memSize ws = true ∧ s.loadBinary o bytes = { s with image := ws } := by
  unfold State.loadBinary
  split
  · next hok =>
    simp only [binaryImageOk, Bool.and_eq_true, decide_eq_true_eq] at hok
    obtain ⟨hmul, hle⟩ := hok
    obtain ⟨ws, hws, -, hlen⟩ := bytesOfWords_wordsOfBytes o (bytes.length / 4) bytes (by omega)
    have hfit : ws.length ≤ s.memSize := by omega
    exact .inr ⟨ws, by simpa [imageFits] using hfit, by rw [hws]⟩
  · exact .inl rfl

/-- R213: a save leaves the state alone or patches PC into word 2. -/
theorem State.saveWith_cases (live : Bool) (s : State) :
    s.saveWith live = s ∨ s.saveWith live = { s with mem := s.mem.write 2 s.pc } := by
  unfold State.saveWith
  split
  · exact .inr rfl
  · exact .inl rfl

/-- The host inputs that perform the Init action in `s` (R172, R173, R174). -/
def State.performsInit (s : State) (e : HostInput) : Prop :=
  e = .reload ∨ (s.mode = .halted ∧ (e = .start ∨ e = .step))

/-- R24: of the host inputs only the Init action touches StepCount. -/
theorem State.onInput_stepCount (s : State) (e : HostInput) :
    (s.onInput e).stepCount = s.stepCount ∨ ((s.onInput e).stepCount = 0 ∧ s.performsInit e) := by
  unfold State.onInput
  cases e with
  | start =>
    rcases s.onStart_cases with ⟨hm, h⟩ | ⟨r, a, -, h⟩ | ⟨-, h⟩
    · exact .inr ⟨by simp [h], .inr ⟨hm, .inl rfl⟩⟩
    · exact .inl (by simp [h])
    · exact .inl (by simp [h])
  | step =>
    rcases s.onStep_cases with ⟨hm, h⟩ | ⟨r, a, -, h⟩ | ⟨-, h⟩
    · exact .inr ⟨by simp [h], .inr ⟨hm, .inr rfl⟩⟩
    · exact .inl (by simp [h])
    · exact .inl (by simp [h])
  | reload => exact .inr ⟨rfl, .inl rfl⟩
  | key k => rcases s.onKey_cases k with ⟨r, a, -, h⟩ | ⟨-, h⟩ <;> exact .inl (by simp [h])
  | tick => rcases s.onTick_cases with ⟨-, h⟩ | h <;> exact .inl (by simp [h])
  | loadText values => rcases s.loadText_cases values with h | ⟨ws, -, h⟩ <;> exact .inl (by simp [h])
  | loadBinary bytes =>
    rcases State.loadBinary_cases Config.byteOrder s bytes with h | ⟨ws, -, h⟩ <;> exact .inl (by simp [h])
  | save => rcases State.saveWith_cases Config.savePatchLive s with h | h <;> exact .inl (by simp [h])

end Sys2Proof.Machine
end

section
/-! PROOFS. The state family (spec/10_state.md): the invariant of the block along every transition, StepCount, and the
status view. -/

namespace Sys2Proof.Machine

/-! ### The invariant under the shared operations -/

namespace State.Inv

variable {s : State}

/-- The invariant does not speak of the moves to come. -/
theorem withSchedule (h : s.Inv) (rest : List Move) : State.Inv { s with schedule := rest } := { h with }

theorem latch (h : s.Inv) (w : InstrWords) : (s.latch w).Inv := { h with }

theorem emit (h : s.Inv) (o : Output) : (s.emit o).Inv := { h with }

theorem memWrite (h : s.Inv) {a : Nat} (ha : a < s.memSize) (v : Word) :
    State.Inv { s with mem := s.mem.write a v } :=
  { h with
    memWf := Memory.wf_write a v h.memWf
    memWithin := Memory.within_write v h.memWithin ha }

/-- R168, R177: the queue changes only where no READ waits on it. -/
theorem withQueue (h : s.Inv) {q : List Word} (hq : q.length ≤ s.queueCap) (hb : ∀ r a, s.mode ≠ .blocked r a) :
    State.Inv { s with queue := q } :=
  { h with
    queueBounded := hq
    blockedOk := fun r a hm => absurd hm (hb r a) }

theorem withImage (h : s.Inv) {ws : List Word} (hws : Sys2Proof.imageFits s.memSize ws = true) :
    State.Inv { s with image := ws } :=
  { h with imageFits := hws }

/-- Control moves between modes other than Halted, where the new mode's own clauses hold: the diagnostic stays clear. -/
theorem enter (h : s.Inv) {m : Mode} {b : Budget} (hs : s.mode ≠ .halted) (hm : m ≠ .halted)
    (hblocked : ∀ r a, m = .blocked r a → s.hasWord a ∧ s.queue = [])
    (hbudget : ∀ p n, m = .running p → b = .finite n → s.stepCount ≤ n ∧ n ≤ s.stepCount + 1) :
    State.Inv { s with stepBudget := b, mode := m } :=
  { h with
    blockedOk := hblocked
    diagOk := ⟨fun _ => hm, fun _ => h.diagOk.mpr hs⟩
    budgetOk := hbudget }

/-- R172, R173, R175: a budget is exhausted or one step from exhausted when Running is entered. -/
theorem runWith (h : s.Inv) (hs : s.mode ≠ .halted) {b : Budget} (hb : b = .unlimited ∨ b = s.oneMore) :
    (s.runWith b).Inv := by
  refine h.enter hs nofun nofun fun p n _ hn => ?_
  rcases hb with rfl | rfl
  · cases hn
  · cases hn; exact ⟨Nat.le_succ _, Nat.le_refl _⟩

/-- R233: Halted is entered with the diagnostic latched. -/
theorem haltWith (h : s.Inv) {c : Cause} (hc : c ≠ .none) (info : Word) : (s.haltWith c info).Inv :=
  { h with
    blockedOk := nofun
    diagOk := ⟨fun hnone => absurd hnone hc, fun hm => absurd rfl hm⟩
    budgetOk := nofun }

theorem takeFault (h : s.Inv) (x : Raised) : (s.takeFault x).Inv := h.haltWith x.cause.toCause_ne_none x.info

theorem takeBreak (h : s.Inv) (hs : s.mode ≠ .halted) : s.takeBreak.Inv :=
  (h.enter (b := s.stepBudget) hs nofun nofun nofun : State.Inv { s with mode := .paused }).emit .paused

/-- R261: Memory holds IMAGE, which fits, and every other element has its reset value. -/
theorem initAction (h : s.Inv) : s.initAction.Inv :=
  { h with
    memWf := Memory.wf_placeAt 0 s.image
    memWithin := by
      have hlen : s.image.length ≤ s.memSize := by simpa [Sys2Proof.imageFits] using h.imageFits
      exact Memory.within_placeAt 0 s.memSize s.image (by omega)
    pcAligned := rfl
    queueBounded := Nat.zero_le _
    blockedOk := nofun
    diagOk := ⟨fun _ => nofun, fun _ => rfl⟩
    budgetOk := nofun }

/-! ### The invariant under an executor step -/

/-- R163: with the budget not reached a finite budget is StepCount + 1, which the retirement reaches. -/
theorem retire (h : s.Inv) (hen : s.execEnabled) {p : Word} (hp : p.toNat % 4 = 0) : (s.retire p).Inv :=
  { h with
    pcAligned := hp
    budgetOk := by
      obtain ⟨hm, hlt⟩ := hen
      intro _ n _ hn
      have hbound := h.budgetOk _ n hm hn
      have := hlt n hn
      simp only [State.retire_stepCount]
      omega }

/-- R165 to R170: the reaction to the event of an instruction that ran in Running(Active). -/
theorem react (h : s.Inv) (hm : s.mode = .running .active) {ev : Event}
    (hev : ∀ a, ev = .keyboard a → s.hasWord a) : (s.react ev).Inv := by
  have hs : s.mode ≠ .halted := by simp [hm]
  cases ev with
  | none => exact h
  | draw =>
    have hy : State.Inv { s with mode := .running .yielded } :=
      h.enter hs nofun nofun fun _ n _ hn => h.budgetOk _ n hm hn
    exact hy.emit .draw
  | print v => exact h.emit (.print v)
  | halt => exact h.haltWith (c := .haltInstr) (by decide) 0
  | keyboard a =>
    have ha : s.hasWord a := hev a rfl
    simp only [State.react]
    rcases s.reactKeyboard_cases a with ⟨k, rest, hq, heq⟩ | ⟨hq, heq⟩
    · have hlen : rest.length ≤ s.queueCap := by
        have := h.queueBounded
        simp only [hq, List.length_cons] at this
        omega
      rw [heq]
      exact (h.withQueue hlen (by simp [hm])).memWrite ha k
    · have hb : State.Inv { s with mode := .blocked s.stepBudget.resume a } :=
        h.enter hs nofun (fun _ _ heq => by cases heq; exact ⟨ha, hq⟩) nofun
      rw [heq]
      exact hb.emit (.blocked a)

/-- The memory an instruction leaves before the reaction keeps the invariant. -/
theorem oneWordWritten (h : s.Inv) {i : Instr} {m : Memory} (hm : OneWordWritten i s m) :
    State.Inv { s with mem := m } := by
  rcases hm with ⟨rfl, -⟩ | ⟨a, v, -, -, ha, rfl⟩
  · exact h
  · exact h.memWrite ha v

end State.Inv

/-- Only a READ reports a keyboard event, and of its own address. -/
theorem eq_read_of_eventOf {i : Instr} {s : State} {a : Word} (h : eventOf s i = .keyboard a) : i = .read a := by
  cases i with
  | read b => cases h; rfl
  | _ => cases h

theorem State.Inv.retiresTo {i : Instr} {s t : State} (h : s.Inv) (hen : s.execEnabled) (ht : RetiresTo i s t) :
    t.Inv := by
  obtain ⟨m, hm, hret, rfl⟩ := ht
  have hretired : (State.retire { s with mem := m } (nextPC s i)).Inv :=
    (h.oneWordWritten hm).retire hen (nextPC_aligned hret h.pcAligned)
  refine hretired.react hen.1 fun a hev => ?_
  obtain rfl := eq_read_of_eventOf hev
  have ha : s.hasWord a := read_retires_exists hret
  exact ha

theorem State.Inv.execStep {s t : State} (h : s.Inv) (hen : s.execEnabled) (ht : s.execStep = .next t) : t.Inv := by
  rcases State.execStep_cases ht with ⟨x, rfl | rfl⟩ | ⟨-, i, -, hret⟩
  · exact h.takeFault x
  · exact (h.latch _).takeFault x
  · exact (h.latch _).retiresTo hen hret

/-! ### The invariant under a host input -/

/-- R172, R173: a blocked READ goes on waiting for the same address. -/
theorem State.Inv.blockedAs {s : State} (h : s.Inv) {r : Resume} {a : Word} (hm : s.mode = .blocked r a) (r' : Resume) :
    State.Inv { s with mode := .blocked r' a } :=
  h.enter (by simp [hm]) nofun (fun _ _ heq => by cases heq; exact h.blockedOk r a hm) nofun

theorem State.Inv.onKey {s : State} (h : s.Inv) (k : Word) : (s.onKey k).Inv := by
  rcases s.onKey_cases k with ⟨r, a, hm, heq⟩ | ⟨hm, heq⟩
  · obtain ⟨ha, -⟩ := h.blockedOk r a hm
    rw [heq]
    refine (h.memWrite ha k).runWith (by simp [hm]) ?_
    cases r with
    | one => exact .inr rfl
    | many => exact .inl rfl
  · obtain ⟨-, -, hcap, -⟩ := (paramsOk_iff _ _ _).mp h.params
    rw [heq]
    exact h.withQueue (queuePush_length_le s.queueCap s.queue k hcap h.queueBounded) hm

theorem State.Inv.onTick {s : State} (h : s.Inv) : s.onTick.Inv := by
  rcases s.onTick_cases with ⟨hm, heq⟩ | heq
  · rw [heq]
    exact h.enter (by simp [hm]) nofun nofun fun _ n _ hn => h.budgetOk _ n hm hn
  · rw [heq]; exact h

/-- R213: word 2 exists, since N is at least 4. -/
theorem State.Inv.saveWith {s : State} (h : s.Inv) (live : Bool) : (s.saveWith live).Inv := by
  obtain ⟨hN, -⟩ := (paramsOk_iff _ _ _).mp h.params
  rcases State.saveWith_cases live s with heq | heq
  · rw [heq]; exact h
  · rw [heq]; exact h.memWrite (by omega) s.pc

theorem State.Inv.onInput {s : State} (h : s.Inv) (e : HostInput) : (s.onInput e).Inv := by
  unfold State.onInput
  cases e with
  | start =>
    rcases s.onStart_cases with ⟨-, heq⟩ | ⟨r, a, hm, heq⟩ | ⟨hm, heq⟩
    · simpa only [heq] using h.initAction.runWith nofun (.inl rfl)
    · simpa only [heq] using h.blockedAs hm .many
    · simpa only [heq] using h.runWith hm (.inl rfl)
  | step =>
    rcases s.onStep_cases with ⟨-, heq⟩ | ⟨r, a, hm, heq⟩ | ⟨hm, heq⟩
    · simpa only [heq] using h.initAction.runWith nofun (.inr rfl)
    · simpa only [heq] using h.blockedAs hm .one
    · simpa only [heq] using h.runWith hm (.inr rfl)
  | reload => exact h.initAction
  | key k => exact h.onKey k
  | tick => exact h.onTick
  | loadText values =>
    rcases s.loadText_cases values with heq | ⟨ws, hws, heq⟩
    · simpa only [heq] using h
    · simpa only [heq] using h.withImage hws
  | loadBinary bytes =>
    rcases State.loadBinary_cases Config.byteOrder s bytes with heq | ⟨ws, hws, heq⟩
    · simpa only [heq] using h
    · simpa only [heq] using h.withImage hws
  | save => exact h.saveWith _

/-- Settles O55, by the cases of a transition: each shared operation keeps the invariant. -/
theorem everyTransitionKeepsTheInvariant : Obligations.EveryTransitionKeepsTheInvariant := by
  intro s t h hstep
  rcases step_cases hstep with ⟨rest, -, -, rfl⟩ | ⟨rest, -, hm, -, rfl⟩ | ⟨rest, -, hen, hx⟩ | ⟨e, rest, -, rfl⟩
  · exact h.withSchedule rest
  · exact (h.withSchedule rest).takeBreak (by simp [hm])
  · exact (h.withSchedule rest).execStep hen hx
  · exact (h.withSchedule rest).onInput e

/-! ### StepCount -/

/-- Settles O58, by the cases of a transition: an executor step that does not count has taken a fault, and a turn that
passes, the break and the host inputs leave StepCount alone or perform the Init action. -/
theorem stepCountCountsRetirements : Obligations.StepCountCountsRetirements := by
  intro s t hstep
  rcases step_cases hstep with ⟨rest, -, hm, rfl⟩ | ⟨rest, -, -, hne, rfl⟩ | ⟨rest, hturn, hen, hx⟩ |
    ⟨e, rest, hs, rfl⟩
  · exact .inr (.inl ⟨rfl, fun hen => absurd hen.1 hm⟩)
  · exact .inr (.inl ⟨rfl, fun hen => absurd hen hne⟩)
  · rcases State.execStep_cases hx with ⟨x, rfl | rfl⟩ | ⟨hpc, i, hi, hret⟩
    · exact .inr (.inl ⟨rfl, fun _ _ => ⟨rfl, x.cause.toCause_ne_none, x.cause.toCause_ne_haltInstr⟩⟩)
    · exact .inr (.inl ⟨rfl, fun _ _ => ⟨rfl, x.cause.toCause_ne_none, x.cause.toCause_ne_haltInstr⟩⟩)
    · exact .inl ⟨hret.stepCount, hen, ⟨rest, hturn⟩, hpc, i, hi⟩
  · rcases State.onInput_stepCount { s with schedule := rest } e with hc | ⟨hc, hinit⟩
    · have noTurn : ¬ ∃ rest', s.blockTurn rest' := by simp [State.blockTurn, hs]
      exact .inr (.inl ⟨hc, fun _ hturn => absurd hturn noTurn⟩)
    · exact .inr (.inr ⟨hc, e, rest, hs, hinit⟩)

/-! ### The status view -/

/-- R32: the mode codes tell the modes apart, up to the phase of Running; with the address, Blocked too. -/
theorem Mode.code_identifies (m : Mode) :
    m.code.toNat ≤ 5 ∧ (m.code = 0 ↔ m = .init) ∧ (m.code = 1 ↔ ∃ p, m = .running p) ∧ (m.code = 2 ↔ m = .paused) ∧
    (∀ a, (m.code = 3 ∧ m.blockedAddr = some a) ↔ m = .blocked .one a) ∧
    (∀ a, (m.code = 4 ∧ m.blockedAddr = some a) ↔ m = .blocked .many a) ∧ (m.code = 5 ↔ m = .halted) := by
  rcases m with _ | p | _ | ⟨_ | _, a⟩ | _ <;> simp [Mode.code, Mode.blockedAddr]

theorem Cause.code_toNat_le (c : Cause) : c.code.toNat ≤ 5 := by cases c <;> decide

/-- R230: the cause codes tell the causes apart. -/
theorem Cause.code_injective : Function.Injective Cause.code := by
  intro c d
  cases c <;> cases d <;> decide

/-- R32: ⌈log2(Q_CAP + 1)⌉ is the least number of bits that can hold Q_CAP. -/
theorem queueLenWidth_le_iff (cap w : Nat) : queueLenWidth cap ≤ w ↔ cap + 1 ≤ 2 ^ w :=
  Nat.clog_le_iff_le_pow Nat.one_lt_two

/-- Settles O52: the codes tell modes and causes apart, and the other fields are the state's own. -/
theorem statusViewReportsTheState : Obligations.StatusViewReportsTheState := by
  intro s
  obtain ⟨hle, hinit, hrunning, hpaused, hone, hmany, hhalted⟩ := s.mode.code_identifies
  have hcause (c : Cause) : s.diag.cause.code = c.code ↔ s.diag.cause = c := Cause.code_injective.eq_iff
  exact ⟨hle, s.diag.cause.code_toNat_le, decide_eq_true_iff, hinit, hrunning, hpaused, hone, hmany, hhalted,
    hcause .none, hcause .haltInstr, hcause .invalidOpcode, hcause .divideByZero, hcause .addressError,
    hcause .misalignedTarget, rfl, rfl, rfl, queueLenWidth_le_iff s.queueCap, State.status_queueLen, rfl, rfl⟩

end Sys2Proof.Machine
end

section
/-! PROOFS. The memory family (spec/20_memory.md): what no instruction touches, the parameters along every transition
(R53), the next fetch and the framebuffer after a write (R64, R54), and the byte view (R56). -/

namespace Sys2Proof.Machine

/-! ### What no instruction touches -/

/-- `t` has the latches, the budget, the parameters, IMAGE and the moves to come of `s`: the fields that no instruction
and no reaction to its event touches. -/
structure SameSetting (s t : State) : Prop where
  latches : t.latches = s.latches
  stepBudget : t.stepBudget = s.stepBudget
  memSize : t.memSize = s.memSize
  queueCap : t.queueCap = s.queueCap
  image : t.image = s.image
  frameBuffer : t.frameBuffer = s.frameBuffer
  schedule : t.schedule = s.schedule

theorem State.react_sameSetting (s : State) (ev : Event) : SameSetting s (s.react ev) := by
  cases ev with
  | keyboard a =>
    simp only [State.react]
    rcases s.reactKeyboard_cases a with ⟨k, rest, -, heq⟩ | ⟨-, heq⟩
    · rw [heq]; exact ⟨rfl, rfl, rfl, rfl, rfl, rfl, rfl⟩
    · rw [heq]; exact ⟨rfl, rfl, rfl, rfl, rfl, rfl, rfl⟩
  | _ => exact ⟨rfl, rfl, rfl, rfl, rfl, rfl, rfl⟩

theorem RetiresTo.sameSetting {i : Instr} {s t : State} (h : RetiresTo i s t) : SameSetting s t := by
  obtain ⟨m, -, -, rfl⟩ := h
  exact { State.react_sameSetting (State.retire { s with mem := m } (nextPC s i)) (eventOf s i) with }

theorem State.takeFault_sameSetting (s : State) (x : Raised) : SameSetting s (s.takeFault x) :=
  ⟨rfl, rfl, rfl, rfl, rfl, rfl, rfl⟩

theorem exec_sameSetting {i : Instr} {s t : State} (h : exec i s = .next t) : SameSetting s t := by
  rcases exec_next_cases h with ⟨x, rfl⟩ | hret
  · exact s.takeFault_sameSetting x
  · exact hret.sameSetting

/-! ### The parameters along every transition -/

/-- R53, R264: an executor step loads the latches and touches no parameter and no IMAGE. -/
theorem State.execStep_parameters {s t : State} (h : s.execStep = .next t) :
    t.memSize = s.memSize ∧ t.queueCap = s.queueCap ∧ t.frameBuffer = s.frameBuffer ∧ t.image = s.image := by
  rcases State.execStep_cases h with ⟨x, rfl | rfl⟩ | ⟨-, i, -, hret⟩
  · exact ⟨rfl, rfl, rfl, rfl⟩
  · exact ⟨rfl, rfl, rfl, rfl⟩
  · exact ⟨hret.sameSetting.memSize, hret.sameSetting.queueCap, hret.sameSetting.frameBuffer, hret.sameSetting.image⟩

/-- R53, R264: of the host inputs only the image loads touch IMAGE, and none a parameter. -/
theorem State.onInput_parameters (s : State) (e : HostInput) :
    (s.onInput e).memSize = s.memSize ∧ (s.onInput e).queueCap = s.queueCap ∧
    (s.onInput e).frameBuffer = s.frameBuffer ∧
    ((s.onInput e).image = s.image ∨ (∃ values, e = .loadText values) ∨ ∃ bytes, e = .loadBinary bytes) := by
  unfold State.onInput
  cases e with
  | start => rcases s.onStart_cases with ⟨-, h⟩ | ⟨r, a, -, h⟩ | ⟨-, h⟩ <;> simp [h]
  | step => rcases s.onStep_cases with ⟨-, h⟩ | ⟨r, a, -, h⟩ | ⟨-, h⟩ <;> simp [h]
  | reload => exact ⟨rfl, rfl, rfl, .inl rfl⟩
  | key k => rcases s.onKey_cases k with ⟨r, a, -, h⟩ | ⟨-, h⟩ <;> simp [h]
  | tick => rcases s.onTick_cases with ⟨-, h⟩ | h <;> simp [h]
  | loadText values => rcases s.loadText_cases values with h | ⟨ws, -, h⟩ <;> simp [h]
  | loadBinary bytes =>
    rcases State.loadBinary_cases Config.byteOrder s bytes with h | ⟨ws, -, h⟩ <;> simp [h]
  | save => rcases State.saveWith_cases Config.savePatchLive s with h | h <;> simp [h]

/-- Settles O56, by the cases of a transition: only a host input that is an image load touches IMAGE. -/
theorem parametersSurviveEveryTransition : Obligations.ParametersSurviveEveryTransition := by
  intro s t hstep
  rcases step_cases hstep with ⟨rest, -, -, rfl⟩ | ⟨rest, -, -, -, rfl⟩ | ⟨rest, -, -, hx⟩ | ⟨e, rest, hs, rfl⟩
  · exact ⟨rfl, rfl, rfl, .inl rfl⟩
  · exact ⟨rfl, rfl, rfl, .inl rfl⟩
  · obtain ⟨hN, hcap, hframe, himage⟩ := State.execStep_parameters hx
    exact ⟨hN, hcap, hframe, .inl himage⟩
  · obtain ⟨hN, hcap, hframe, himage⟩ := State.onInput_parameters { s with schedule := rest } e
    refine ⟨hN, hcap, hframe, ?_⟩
    rcases himage with himage | ⟨values, rfl⟩ | ⟨bytes, rfl⟩
    · exact .inl himage
    · exact .inr (.inl ⟨values, rest, hs⟩)
    · exact .inr (.inr ⟨bytes, rest, hs⟩)

/-! ### The two ways a word is written: an instruction that retires, and a key for a blocked READ -/

/-- The instruction's word is the one of `storeOf`, at an address that exists. -/
theorem exec_mem_of_storeOf {i : Instr} {s t : State} {a v : Word} (h : exec i s = .next t)
    (hc : t.stepCount = s.stepCount + 1) (hst : storeOf s i = some (a, v)) :
    s.hasWord a ∧ t.mem = s.mem.write a.toNat v ∧ t.pc = s.pc + 4 := by
  obtain ⟨-, ⟨hc', -⟩ | ⟨-, hpc, ⟨hnone, -⟩ | ⟨a', v', hst', ha, hmem⟩⟩⟩ := exec_words h
  · omega
  · simp [hst] at hnone
  · obtain ⟨rfl, rfl⟩ : a = a' ∧ v = v' := by simpa [hst] using hst'
    exact ⟨ha, hmem, hpc.trans (nextPC_of_storeOf hst)⟩

/-- R160: a host input that is scheduled comes next. -/
theorem step_of_host {s : State} {e : HostInput} {rest : List Move} (h : s.schedule = .host e :: rest) :
    step s = .next (State.onInput { s with schedule := rest } e) := by
  simp only [step, State.advance, h]

/-- R175: the key code goes to the blocked READ's address, and Running is entered. -/
theorem State.onKey_of_blocked {s : State} {r : Resume} {a : Word} (k : Word) (h : s.mode = .blocked r a) :
    s.onKey k = State.runWith { s with mem := s.mem.write a.toNat k } (s.resumeBudget r) := by
  simp only [State.onKey, h]

theorem step_of_key_blocked {s : State} {rest : List Move} {k a : Word} {r : Resume}
    (hs : s.schedule = .host (.key k) :: rest) (hm : s.mode = .blocked r a) :
    ∃ t, step s = .next t ∧ t.mem = s.mem.write a.toNat k ∧ t.pc = s.pc ∧ t.memSize = s.memSize ∧
      t.frameBuffer = s.frameBuffer :=
  ⟨_, (step_of_host hs).trans (congrArg _ (State.onKey_of_blocked (s := { s with schedule := rest }) k hm)),
    rfl, rfl, rfl, rfl⟩

/-! ### The next fetch -/

theorem State.fetchFault_of_words {s : State} (h : s.pc.toNat + 3 < s.memSize) : s.fetchFault = .none := by
  unfold State.fetchFault
  rw [if_neg (by omega), if_neg (by omega), if_neg (by omega), if_neg (by omega)]

/-- R163, R164: with the budget not reached the internal transition is the executor step. -/
theorem State.internal_of_execEnabled {s : State} (h : s.execEnabled) : s.internal = s.execStep := by
  obtain ⟨hm, hb⟩ := s.execEnabled_iff.mp h
  simp [State.internal, State.isActive, hm, hb]

/-- R160: on the block's turn in Running(Active) the transition is the internal one. -/
theorem step_of_blockTurn {s : State} {rest : List Move} (hturn : s.blockTurn rest) (hm : s.mode = .running .active) :
    step s = State.internal { s with schedule := rest } := by
  rcases hturn with ⟨hs, rfl⟩ | hs
  · have hsame : { s with schedule := [] } = s := by rw [← hs]
    rw [hsame]
    simp only [step, State.advance, hs]
  · have hactive : s.isActive = true := by simp [State.isActive, hm]
    simp only [step, State.advance, hs, hactive, if_true]

/-- R91, R92: the latches hold the four fetched words once the executor step is done. -/
theorem State.execStep_latched {s : State} (h : s.pc.toNat + 3 < s.memSize) :
    ∃ u, s.execStep = .next u ∧ u.latched = s.fetchWords := by
  have hx : s.execStep = (s.latch s.fetchWords).execLatched := by
    simp only [State.execStep, State.fetchFault_of_words h]
  rw [hx]
  unfold State.execLatched
  split
  · next i hi =>
    obtain ⟨u, hu⟩ : ∃ u, exec i (s.latch s.fetchWords) = .next u := by
      rcases exec_cases i (s.latch s.fetchWords) with ⟨x, hx⟩ | ⟨m, -, hx⟩ <;> exact ⟨_, hx⟩
    exact ⟨u, hu, by simp only [State.latched, (exec_sameSetting hu).latches, State.latch_latches]⟩
  · exact ⟨_, rfl, rfl⟩

theorem step_latched {s : State} {rest : List Move} (hturn : s.blockTurn rest) (hen : s.execEnabled)
    (hpc : s.pc.toNat + 3 < s.memSize) : ∃ u, step s = .next u ∧ u.latched = s.fetchWords := by
  have hen' : State.execEnabled { s with schedule := rest } := hen
  rw [step_of_blockTurn hturn hen.1, State.internal_of_execEnabled hen']
  exact State.execStep_latched (s := { s with schedule := rest }) hpc

theorem State.wordAt_of_mem_write {s t : State} {a v : Word} (h : t.mem = s.mem.write a.toNat v) (x : Nat) :
    t.wordAt x = s.wordAfter a v x := by
  rw [State.wordAt_eq, h]
  exact Memory.read_write s.mem a.toNat x v

theorem State.fetchWords_of_mem_write {s t : State} {a v : Word} (h : t.mem = s.mem.write a.toNat v) :
    t.fetchWords = s.fetchAfter a v t.pc := by
  simp only [State.fetchWords, State.fetchAfter, State.wordAt_of_mem_write h]

/-- Settles O36: the fetch after a write reads the written Memory, and the executor step that makes the fetch loads what
it read into the latches, which no instruction touches. -/
theorem nextFetchSeesTheWrite : Obligations.NextFetchSeesTheWrite := by
  refine ⟨fun i s t a v hx hc hst => ?_, fun s rest k a r hs hm => ?_⟩
  · obtain ⟨-, hmem, hpc⟩ := exec_mem_of_storeOf hx hc hst
    have hfetch : t.fetchWords = s.fetchAfter a v (s.pc + 4) := hpc ▸ State.fetchWords_of_mem_write hmem
    exact ⟨hpc, hfetch, fun rest hturn hen hin => hfetch ▸ step_latched hturn hen hin⟩
  · obtain ⟨t, hstep, hmem, hpc, -, -⟩ := step_of_key_blocked hs hm
    have hfetch : t.fetchWords = s.fetchAfter a k s.pc := hpc ▸ State.fetchWords_of_mem_write hmem
    exact ⟨t, hstep, hfetch, fun later hturn hen hin => hfetch ▸ step_latched hturn hen hin⟩

/-! ### The framebuffer -/

section

variable {s t : State} {j : Nat} (hN : t.memSize = s.memSize) (hframe : t.frameBuffer = s.frameBuffer)
include hN hframe

theorem State.framePixel_congr (hword : t.wordAt (s.frameBuffer.base + j) = s.wordAt (s.frameBuffer.base + j)) :
    t.framePixel j = s.framePixel j := by
  simp only [State.framePixel, hN, hframe, hword]

variable {a v : Word} (hmem : t.mem = s.mem.write a.toNat v)
include hmem

/-- R54: the pixel that lies at the written address, a word that exists, shows the word written. -/
theorem State.framePixel_of_mem_write_same (ha : s.hasWord a) (hj : j < s.frameBuffer.width * s.frameBuffer.height)
    (haj : a.toNat = s.frameBuffer.base + j) : t.framePixel j = some v := by
  simp [State.framePixel, hN, hframe, hj, ← haj, ha, State.wordAt_of_mem_write hmem, State.wordAfter]

theorem State.framePixel_of_mem_write_other (haj : a.toNat ≠ s.frameBuffer.base + j) :
    t.framePixel j = s.framePixel j := by
  refine State.framePixel_congr hN hframe ?_
  rw [State.wordAt_of_mem_write hmem, State.wordAfter, if_neg haj.symm]

end

/-- No pixel changes but the one at the address of an instruction's write. -/
theorem exec_framePixel_other {i : Instr} {s t : State} {j : Nat} (h : exec i s = .next t)
    (hother : ∀ a, storeTarget s i = some a → a.toNat ≠ s.frameBuffer.base + j) :
    t.framePixel j = s.framePixel j := by
  have hframe := (exec_sameSetting h).frameBuffer
  have unwritten (hN : t.memSize = s.memSize) (hmem : t.mem = s.mem) : t.framePixel j = s.framePixel j :=
    State.framePixel_congr hN hframe (by rw [State.wordAt_eq, hmem, State.wordAt_eq])
  obtain ⟨hN, ⟨-, hmem⟩ | ⟨-, -, ⟨-, hmem⟩ | ⟨a, v, hst, -, hmem⟩⟩⟩ := exec_words h
  · exact unwritten hN hmem
  · exact unwritten hN hmem
  · exact State.framePixel_of_mem_write_other hN hframe hmem (hother a (by simp [storeTarget, hst]))

/-- Settles O51: a pixel is a word of Memory, and an instruction, like a key for a blocked READ, writes one word alone. -/
theorem framebufferSeesOrdinaryWrites : Obligations.FramebufferSeesOrdinaryWrites := by
  refine ⟨fun i s t hx => ⟨fun a v j hc hst hj haj => ?_, fun j => exec_framePixel_other hx⟩, fun s rest k a r hs hm => ?_⟩
  · obtain ⟨ha, hmem, -⟩ := exec_mem_of_storeOf hx hc hst
    have hset := exec_sameSetting hx
    exact State.framePixel_of_mem_write_same hset.memSize hset.frameBuffer hmem ha hj haj
  · obtain ⟨t, hstep, hmem, -, hN, hframe⟩ := step_of_key_blocked hs hm
    exact ⟨t, hstep, fun j => State.framePixel_of_mem_write_same hN hframe hmem,
      fun j => State.framePixel_of_mem_write_other hN hframe hmem⟩

/-! ### The byte view -/

/-- R56: the `k`-th byte of a word, in either order. -/
theorem bytesOfWord_getElem? (w : Word) {k : Nat} (hk : k < 4) :
    (bytesOfWord .little w)[k]? = some (w.extractLsb' (8 * k) 8) ∧
    (bytesOfWord .big w)[k]? = some (w.extractLsb' (24 - 8 * k) 8) := by
  match k, hk with
  | 0, _ => exact ⟨rfl, rfl⟩
  | 1, _ => exact ⟨rfl, rfl⟩
  | 2, _ => exact ⟨rfl, rfl⟩
  | 3, _ => exact ⟨rfl, rfl⟩

/-- The bytes of word `a` are those from 4a to 4a + 3. -/
theorem State.byteAt_of_word (o : ByteOrder) {s : State} {a k : Nat} (ha : a < s.memSize) (hk : k < 4) :
    s.byteAt o (4 * a + k) = (bytesOfWord o (s.wordAt a))[k]? := by
  have hdiv : (4 * a + k) / 4 = a := by omega
  have hmod : (4 * a + k) % 4 = k := by omega
  simp only [State.byteAt, hdiv, hmod, if_pos ha]

/-- Settles O50: byte 4a + k of the byte view is the `k`-th byte of word `a`. -/
theorem byteViewFollowsTheByteOrder : Obligations.ByteViewFollowsTheByteOrder := by
  intro s a k ha hk
  rw [State.byteAt_of_word .little ha hk, State.byteAt_of_word .big ha hk]
  exact bytesOfWord_getElem? (s.wordAt a) hk

end Sys2Proof.Machine
end

section
/-! PROOFS. The encoding family (spec/30_encoding.md): what decoding can answer, said once, its two round trips with the
encoder (R71, R75, R76), and the four words as one number of 128 bits (R70). -/

namespace Sys2Proof

open Machine

/-! ### The family `EncodesItself`, for every instruction -/

open Laws.EncodesItself in
theorem encodesItself : ∀ i : Instr, Statement i
  | .halt => halt
  | .jmp a => jmp a
  | .jif a b => jif a b
  | .savepc a => savepc a
  | .mov a b => mov a b
  | .load a b => load a b
  | .store a b => store a b
  | .add a b c => add a b c
  | .sub a b c => sub a b c
  | .mul a b c => mul a b c
  | .div a b c => div a b c
  | .mod a b c => mod a b c
  | .lt a b c => lt a b c
  | .nand a b => nand a b
  | .draw => draw
  | .read a => read a
  | .print a => print a

/-! ### What decoding can answer -/

/-- The words with every operand word that their opcode ignores (R76) set to 0, as the encoder writes it (log 12). -/
def InstrWords.used (w : InstrWords) : InstrWords :=
  ⟨w.op, if usesA w.op.toNat then w.a else 0, if usesB w.op.toNat then w.b else 0, if usesC w.op.toNat then w.c else 0⟩

theorem InstrWords.used_of_op {w : InstrWords} {n : Nat} (h : w.op.toNat = n) :
    w.used = ⟨BitVec.ofNat 32 n, if usesA n then w.a else 0, if usesB n then w.b else 0, if usesC n then w.c else 0⟩ := by
  subst h
  simp [used]

/-- R72, R75: four words are the instruction that their used words encode, or their opcode word is 17 or more. -/
theorem decode_cases (w : InstrWords) :
    (∃ i, decode w = .ok i ∧ encode i = w.used) ∨
    (17 ≤ w.op.toNat ∧ decode w = .error (.invalidOpcode w.op)) := by
  unfold decode
  split
  case h_18 =>
    refine .inr ⟨?_, rfl⟩
    simp only [imp_false] at *
    omega
  all_goals exact .inl ⟨_, rfl, (InstrWords.used_of_op ‹_›).symm⟩

theorem encode_of_decode_ok {w : InstrWords} {i : Instr} (h : decode w = .ok i) : encode i = w.used := by
  rcases decode_cases w with ⟨j, hj, hused⟩ | ⟨-, herr⟩
  · obtain rfl : j = i := Except.ok.inj (hj.symm.trans h)
    exact hused
  · cases herr.symm.trans h

theorem Instr.opcode_le_sixteen (i : Instr) : i.opcode ≤ 16 :=
  of_decide_eq_true (encodesItself i).1

theorem encode_op_toNat (i : Instr) : (encode i).op.toNat = i.opcode := by cases i <;> rfl

/-- The opcode word of what was decoded is the instruction's number. -/
theorem opcode_of_decode_ok {w : InstrWords} {i : Instr} (h : decode w = .ok i) : i.opcode = w.op.toNat := by
  rw [← encode_op_toNat, encode_of_decode_ok h, InstrWords.used]

theorem decode_of_seventeen_le {w : InstrWords} (h : 17 ≤ w.op.toNat) :
    decode w = .error (.invalidOpcode w.op) := by
  rcases decode_cases w with ⟨i, hi, -⟩ | ⟨-, herr⟩
  · have hop := opcode_of_decode_ok hi
    have hle := i.opcode_le_sixteen
    omega
  · exact herr

/-! ### The round trips -/

@[simp] theorem decode_encode (i : Instr) : decode (encode i) = .ok i := by
  have h : (decode (encode i)).map (fun j => (j, [])) = .ok (i, []) := (encodesItself i).2 []
  cases hd : decode (encode i) with
  | error e => simp [hd, Except.map] at h
  | ok j => simpa [hd, Except.map] using h

/-- R76: only the used words are decoded. -/
theorem decode_used (w : InstrWords) : decode w.used = decode w := by
  rcases decode_cases w with ⟨i, hi, hused⟩ | ⟨hop, herr⟩
  · rw [← hused, decode_encode, hi]
  · rw [herr]
    exact decode_of_seventeen_le (w := w.used) hop

/-! ### The four words as one number -/

theorem bitsOfWords_lt (w : InstrWords) : bitsOfWords w < 2 ^ 128 := by
  unfold bitsOfWords
  omega

@[simp] theorem tableBits_bitsOfWords (w : InstrWords) : tableBits 128 (bitsOfWords w) = bitsOfWords w :=
  Nat.mod_eq_of_lt (bitsOfWords_lt w)

/-- A word stands in the low 32 bits of a number that is the word plus a multiple of 2^32. -/
theorem ofNat_word_add_mul (v : Word) (n : Nat) : BitVec.ofNat 32 (v.toNat + 4294967296 * n) = v := by
  apply BitVec.eq_of_toNat_eq
  rw [BitVec.toNat_ofNat]
  omega

theorem word_add_mul_div (v : Word) (n : Nat) : (v.toNat + 4294967296 * n) / 4294967296 = n := by omega

@[simp] theorem wordsOfBits_bitsOfWords (w : InstrWords) : wordsOfBits (bitsOfWords w) = w := by
  have h64 (n : Nat) : n / 18446744073709551616 = n / 4294967296 / 4294967296 := by omega
  have h96 (n : Nat) : n / 79228162514264337593543950336 = n / 4294967296 / 4294967296 / 4294967296 := by omega
  simp only [wordsOfBits, bitsOfWords, h64, h96, word_add_mul_div, ofNat_word_add_mul, BitVec.ofNat_toNat,
    BitVec.setWidth_eq]

/-! ### The statements -/

/-- Settles O1: the number keeps the four words apart, and the words an instruction encodes decode to it. -/
theorem decodeOfEncodedBits : Obligations.DecodeOfEncodedBits := by
  intro i
  rw [decodeTableWord, tableBits_bitsOfWords, wordsOfBits_bitsOfWords, decode_encode]
  rfl

/-- Settles O2: the cases of decoding, the used words being those of the statement. -/
theorem encodeOfDecodedWords : Obligations.EncodeOfDecodedWords :=
  fun _ _ h => encode_of_decode_ok h

/-- Settles O3: an instruction's number is its opcode word, which is at most 16, and no other opcode word decodes. -/
theorem opcodesZeroToSixteenDecode : Obligations.OpcodesZeroToSixteenDecode := by
  refine fun w => ⟨⟨fun ⟨i, _, hop⟩ => hop ▸ i.opcode_le_sixteen, fun hle => ?_⟩, decode_of_seventeen_le⟩
  rcases decode_cases w with ⟨i, hi, -⟩ | ⟨hge, -⟩
  · exact ⟨i, hi, opcode_of_decode_ok hi⟩
  · omega

/-- Settles O4: words that agree on the opcode and on what it uses have the same used words, and only these are
decoded. -/
theorem ignoredOperandWordsDoNotMatter : Obligations.IgnoredOperandWordsDoNotMatter := by
  intro w w' hop ha hb hc
  have hused : w.used = w'.used := by
    simp only [InstrWords.used, ← hop, InstrWords.mk.injEq, true_and]
    exact ⟨ite_congr rfl ha fun _ => rfl, ite_congr rfl hb fun _ => rfl, ite_congr rfl hc fun _ => rfl⟩
  rw [← decode_used w, hused, decode_used w']

/-- Settles O5: the decoder evaluates on each instruction's words, and the last opcode word is beyond 16. -/
theorem wordsOfTheSpecDecode : Obligations.WordsOfTheSpecDecode :=
  ⟨rfl, rfl, rfl, rfl, rfl, rfl, rfl, decode_of_seventeen_le (by decide)⟩

end Sys2Proof
end

section
/-! PROOFS. The instruction-cycle family (spec/40_instruction_cycle.md): the fetch and its outcomes (R91, R92, R97), the
frame of an instruction (R90, R93, R94), the precise fault (R96), and the data an instruction's outcome is a function of
(R98). -/

namespace Sys2Proof.Machine

/-! ### The fetch -/

/-- R163, R164: on the block's turn with the budget not reached the transition is the executor step. -/
theorem step_of_execEnabled {s : State} {rest : List Move} (hturn : s.blockTurn rest) (hen : s.execEnabled) :
    step s = State.execStep { s with schedule := rest } := by
  have hen' : State.execEnabled { s with schedule := rest } := hen
  rw [step_of_blockTurn hturn hen.1, State.internal_of_execEnabled hen']

/-- R91, R92: a fetch whose four words exist loads the latches, and the step goes on from these. -/
theorem step_of_fetched {s : State} {rest : List Move} (hturn : s.blockTurn rest) (hen : s.execEnabled)
    (hpc : s.pc.toNat + 3 < s.memSize) : step s = (s.fetched rest).execLatched := by
  have hfetch : State.fetchFault { s with schedule := rest } = .none := State.fetchFault_of_words hpc
  rw [step_of_execEnabled hturn hen, State.execStep, hfetch]
  rfl

@[simp] theorem State.fetched_latched (s : State) (rest : List Move) : (s.fetched rest).latched = s.fetchWords := rfl

/-- R91: the fetch reports the first of its four addresses that does not exist. -/
theorem State.fetchFault_of_first_missing {s : State} {k : Nat} (hk : k < 4) (hmissing : s.memSize ≤ s.pc.toNat + k)
    (hbefore : ∀ j, j < k → s.pc.toNat + j < s.memSize) : s.fetchFault = some (s.pc.toNat + k) := by
  unfold State.fetchFault
  match k, hk with
  | 0, _ => exact if_pos hmissing
  | 1, _ =>
    have hlast := hbefore 0 (by decide)
    rw [if_neg (by omega), if_pos hmissing]
  | 2, _ =>
    have hlast := hbefore 1 (by decide)
    rw [if_neg (by omega), if_neg (by omega), if_pos hmissing]
  | 3, _ =>
    have hlast := hbefore 2 (by decide)
    rw [if_neg (by omega), if_neg (by omega), if_neg (by omega), if_pos hmissing]

/-- R96, R164: what taking a fault leaves, field by field. -/
theorem State.takeFault_eq_haltedBy (s : State) (x : Raised) : s.takeFault x = s.haltedBy x.cause.toCause x.info := rfl

/-- Settles O7: the first missing address is the one the fetch reports, and the fault is taken before a latch is
loaded. -/
theorem fetchBeyondMemoryHalts : Obligations.FetchBeyondMemoryHalts := by
  intro s rest k hturn hen hk hmissing hbefore
  have hfetch : State.fetchFault { s with schedule := rest } = some (s.pc.toNat + k) :=
    State.fetchFault_of_first_missing (s := { s with schedule := rest }) hk hmissing hbefore
  rw [step_of_execEnabled hturn hen, State.execStep, hfetch]
  exact complete_error { s with schedule := rest } _

/-- Settles O8: the four words are latched, and a first word of 17 or more does not decode. -/
theorem invalidOpcodeHalts : Obligations.InvalidOpcodeHalts := by
  intro s rest hturn hen hpc hop
  have hdecode : decode s.fetchWords = .error (.invalidOpcode (s.at s.pc)) :=
    decode_of_seventeen_le (w := s.fetchWords) hop
  rw [step_of_fetched hturn hen hpc, State.execLatched, State.fetched_latched, hdecode]
  exact complete_error (s.fetched rest) _

/-- Settles O6: the fetched words are latched, and what they decode to is executed. -/
theorem stepRunsTheDecodedInstruction : Obligations.StepRunsTheDecodedInstruction := by
  intro s rest i hturn hen hpc hdecode
  rw [step_of_fetched hturn hen hpc, State.execLatched, State.fetched_latched, hdecode]

/-! ### The frame of an instruction -/

theorem exec_isNext (i : Instr) (s : State) : ∃ t, exec i s = .next t := by
  rcases exec_cases i s with ⟨x, hx⟩ | ⟨m, -, hx⟩
  · exact ⟨_, hx⟩
  · exact ⟨_, hx⟩

theorem SameSetting.eq_update {s t : State} (h : SameSetting s t) :
    t = { s with
          mem := t.mem
          pc := t.pc
          stepCount := t.stepCount
          mode := t.mode
          queue := t.queue
          diag := t.diag
          trace := t.trace } := by
  obtain ⟨hlatches, hbudget, hN, hcap, himage, hframe, hschedule⟩ := h
  rw [← hlatches, ← hbudget, ← hN, ← hcap, ← himage, ← hframe, ← hschedule]

/-- Settles O30: an instruction takes a fault or retires, and neither touches its setting. -/
theorem everyInstructionAnswersANextState : Obligations.EveryInstructionAnswersANextState := by
  intro i s
  obtain ⟨t, ht⟩ := exec_isNext i s
  exact ⟨t, ht, (exec_sameSetting ht).eq_update⟩

/-- Settles O31: an instruction leaves Memory as it was or writes the one word of `storeOf`, and a read elsewhere finds
the old word. -/
theorem onlyTheStoreTargetChanges : Obligations.OnlyTheStoreTargetChanges := by
  intro i s t hx x hother
  have unwritten (hmem : t.mem = s.mem) : t.wordAt x = s.wordAt x := by rw [State.wordAt_eq, hmem, State.wordAt_eq]
  obtain ⟨-, ⟨-, hmem⟩ | ⟨-, -, ⟨-, hmem⟩ | ⟨a, v, hst, -, hmem⟩⟩⟩ := exec_words hx
  · exact unwritten hmem
  · exact unwritten hmem
  · have hxa : x ≠ a.toNat := hother a (by simp [storeTarget, hst])
    rw [State.wordAt_of_mem_write hmem, State.wordAfter, if_neg hxa]

theorem State.react_pc (s : State) (ev : Event) : (s.react ev).pc = s.pc := (react_keeps s ev).1

theorem State.react_stepCount (s : State) (ev : Event) : (s.react ev).stepCount = s.stepCount :=
  (react_keeps s ev).2.1

theorem RetiresTo.pc {i : Instr} {s t : State} (h : RetiresTo i s t) : t.pc = nextPC s i := by
  obtain ⟨m, -, -, rfl⟩ := h
  exact State.react_pc _ _

/-- Settles O33: PC and StepCount tell a fault from a retirement, and the controller's reaction changes neither. -/
theorem nextPcOfEveryInstruction : Obligations.NextPcOfEveryInstruction := by
  intro i s t hx
  rcases exec_next_cases hx with ⟨x, rfl⟩ | hret
  · exact .inr ⟨rfl, rfl, rfl⟩
  · exact .inl ⟨hret.stepCount, hret.pc⟩

/-! ### Faults are precise -/

/-- R165 to R170: of the events only HALT's enters Halted. -/
theorem State.react_halted {s : State} {ev : Event} (hs : s.mode ≠ .halted) (ht : (s.react ev).mode = .halted) :
    ev = .halt := by
  cases ev with
  | none => exact absurd ht hs
  | draw => cases ht
  | keyboard a =>
    rcases s.reactKeyboard_cases a with ⟨k, rest, -, heq⟩ | ⟨-, heq⟩
    · rw [State.react, heq] at ht; exact absurd ht hs
    · rw [State.react, heq] at ht; cases ht
  | print v => exact absurd ht hs
  | halt => rfl

theorem eq_halt_of_eventOf {i : Instr} {s : State} (h : eventOf s i = .halt) : i = .halt := by
  cases i with
  | halt => rfl
  | _ => cases h

/-- R170: an instruction that enters Halted by retiring is HALT, and the diagnostic says so. -/
theorem RetiresTo.halted {i : Instr} {s t : State} (h : RetiresTo i s t) (hs : s.mode ≠ .halted)
    (ht : t.mode = .halted) : i = .halt ∧ t.diag.cause = .haltInstr := by
  obtain ⟨m, -, -, rfl⟩ := h
  have hev : eventOf s i = .halt := State.react_halted (s := State.retire { s with mem := m } (nextPC s i)) hs ht
  exact ⟨eq_halt_of_eventOf hev, by rw [hev]; rfl⟩

/-- R171 to R177: no host input enters Halted. -/
theorem State.onInput_mode_ne_halted {s : State} (hs : s.mode ≠ .halted) (e : HostInput) :
    (s.onInput e).mode ≠ .halted := by
  unfold State.onInput
  cases e with
  | start => rcases s.onStart_cases with ⟨-, h⟩ | ⟨r, a, -, h⟩ | ⟨-, h⟩ <;> simp [h]
  | step => rcases s.onStep_cases with ⟨-, h⟩ | ⟨r, a, -, h⟩ | ⟨-, h⟩ <;> simp [h]
  | reload => exact nofun
  | key k => rcases s.onKey_cases k with ⟨r, a, -, h⟩ | ⟨-, h⟩ <;> simp [h, hs]
  | tick => rcases s.onTick_cases with ⟨-, h⟩ | h <;> simp [h, hs]
  | loadText values => rcases s.loadText_cases values with h | ⟨ws, -, h⟩ <;> simp [h, hs]
  | loadBinary bytes =>
    rcases State.loadBinary_cases Config.byteOrder s bytes with h | ⟨ws, -, h⟩ <;> simp [h, hs]
  | save => rcases State.saveWith_cases Config.savePatchLive s with h | h <;> simp [h, hs]

/-- R96: an executor step that halts for a cause other than HALT took a fault, with the latches loaded or not. -/
theorem State.execStep_fault {s t : State} (h : s.execStep = .next t) (hs : s.mode ≠ .halted) (ht : t.mode = .halted)
    (hc : t.diag.cause ≠ .haltInstr) : ∃ x : Raised, t = State.takeFault { s with latches := t.latches } x := by
  rcases State.execStep_cases h with ⟨x, rfl | rfl⟩ | ⟨-, i, -, hret⟩
  · exact ⟨x, rfl⟩
  · exact ⟨x, rfl⟩
  · obtain ⟨-, hcause⟩ := hret.halted hs ht
    exact absurd hcause hc

/-- Settles O32: of all that a transition, or an instruction other than HALT, can do, only taking a fault enters Halted
with a cause other than HaltInstr. -/
theorem faultsArePrecise : Obligations.FaultsArePrecise := by
  refine ⟨fun s t hstep hs ht hc => ?_, fun i s t hx hi hs ht => ?_⟩
  · rcases step_cases hstep with ⟨rest, -, -, rfl⟩ | ⟨rest, -, -, -, rfl⟩ | ⟨rest, -, -, hx⟩ | ⟨e, rest, -, rfl⟩
    · exact absurd ht hs
    · cases ht
    · obtain ⟨x, hfault⟩ := State.execStep_fault hx hs ht hc
      rw [hfault]
      exact ⟨x.info, x.cause.toCause_ne_none, rfl⟩
    · exact absurd ht (State.onInput_mode_ne_halted (s := { s with schedule := rest }) hs e)
  · rcases exec_next_cases hx with ⟨x, rfl⟩ | hret
    · exact ⟨_, _, x.cause.toCause_ne_none, x.cause.toCause_ne_haltInstr, s.takeFault_eq_haltedBy x⟩
    · exact absurd (hret.halted hs ht).1 hi

/-! ### What an instruction's outcome depends on -/

/-- The Memory a retired instruction leaves (R93, R97), a READ's key included (R168). -/
def State.memAfter (s : State) (i : Instr) : Memory :=
  (storeOf s i).elim s.mem fun cell => s.mem.write cell.1.toNat cell.2

theorem exec_mem_of_retired {i : Instr} {s t : State} (h : exec i s = .next t) (hc : t.stepCount = s.stepCount + 1) :
    t.mem = s.memAfter i := by
  unfold State.memAfter
  obtain ⟨-, ⟨hc', -⟩ | ⟨-, -, ⟨hst, hmem⟩ | ⟨a, v, hst, -, hmem⟩⟩⟩ := exec_words h
  · omega
  · rw [hst, hmem]; rfl
  · rw [hst, hmem]; rfl

/-- R162: what the controller outputs in reaction to an event at a given PC, a READ's apart. -/
def outputsOf (pc : Word) : Event → List Output
  | .none => []
  | .draw => [.draw]
  | .keyboard _ => []
  | .print v => [.print v]
  | .halt => [.halted ⟨.haltInstr, pc, 0⟩]

theorem State.react_trace (s : State) {ev : Event} (h : ∀ a, ev ≠ .keyboard a) :
    (s.react ev).trace = s.trace ++ outputsOf s.pc ev := by
  cases ev with
  | none => exact (List.append_nil _).symm
  | keyboard a => exact absurd rfl (h a)
  | _ => rfl

theorem RetiresTo.trace {i : Instr} {s t : State} (h : RetiresTo i s t) (hi : ∀ a, i ≠ .read a) :
    t.trace = s.trace ++ outputsOf (nextPC s i) (eventOf s i) := by
  obtain ⟨m, -, -, rfl⟩ := h
  exact State.react_trace _ fun a hev => hi a (eq_read_of_eventOf hev)

/-- R95: an instruction that counts has retired. -/
theorem retiresTo_of_stepCount {i : Instr} {s t : State} (h : exec i s = .next t) (hc : t.stepCount = s.stepCount + 1) :
    RetiresTo i s t := by
  rcases exec_next_cases h with ⟨x, rfl⟩ | hret
  · exact absurd hc (Nat.ne_of_lt (Nat.lt_succ_self _))
  · exact hret

/-- At the end of an executor step, what raises a fault raises it in every state with the same N, and what retires
retires in all of them. -/
theorem complete_fault_or_retires {s s' : State} (hN : s.memSize = s'.memSize) (r : Except Raised Effect) :
    (∃ x, s.complete r = .next (s.takeFault x) ∧ s'.complete r = .next (s'.takeFault x)) ∨
    (∃ t t', s.complete r = .next t ∧ s'.complete r = .next t' ∧
      t.stepCount = s.stepCount + 1 ∧ t'.stepCount = s'.stepCount + 1) := by
  match r with
  | .error x => exact .inl ⟨x, rfl, rfl⟩
  | .ok ⟨.none, p, ev⟩ =>
    exact .inr ⟨_, _, complete_no_write s p ev, complete_no_write s' p ev, State.react_stepCount _ _,
      State.react_stepCount _ _⟩
  | .ok ⟨.some (a, v), p, ev⟩ =>
    by_cases ha : a.toNat < s.memSize
    · exact .inr ⟨_, _, complete_write ha, complete_write (hN ▸ ha), State.react_stepCount _ _, State.react_stepCount _ _⟩
    · exact .inl ⟨_, complete_write_error ha, complete_write_error (hN ▸ ha)⟩

section

variable {s s' : State} (hmem : s.mem = s'.mem)
include hmem

theorem State.at_congr (a : Word) : s.at a = s'.at a := by
  rw [State.at, State.wordAt_eq, hmem, State.at, State.wordAt_eq]

theorem eventOf_congr (i : Instr) : eventOf s i = eventOf s' i := by
  cases i with
  | print a => rw [eventOf, State.at_congr hmem, eventOf]
  | _ => rfl

variable (hpc : s.pc = s'.pc)
include hpc

theorem nextPC_congr (i : Instr) : nextPC s i = nextPC s' i := by
  cases i <;> simp only [nextPC, hpc, State.at_congr hmem]

theorem State.memAfter_congr {i : Instr} (hi : ∀ a, i ≠ .read a) : s.memAfter i = s'.memAfter i := by
  have hst : storeOf s i = storeOf s' i := by
    cases i with
    | read a => exact absurd rfl (hi a)
    | _ => simp only [storeOf, hpc, State.at_congr hmem]
  rw [State.memAfter, hst, hmem, State.memAfter]

variable (hN : s.memSize = s'.memSize)
include hN

/-- R98: the effect, or the fault, that an instruction's rule computes is the same in two states with the same Memory,
N and PC: the operand forms and the address check read nothing else. -/
theorem exec_eq_complete_congr (i : Instr) : ∃ r, exec i s = s.complete r ∧ exec i s' = s'.complete r := by
  cases s
  cases s'
  cases hmem
  cases hN
  cases hpc
  cases i with
  | halt => exact ⟨.ok ⟨.none, _, .halt⟩, rfl, rfl⟩
  | savepc a => exact ⟨.ok (storeAndGoOn _ a _), rfl, rfl⟩
  | draw => exact ⟨.ok (goOn _ .draw), rfl, rfl⟩
  | _ => exact ⟨_, rfl, rfl⟩

/-- R98: two states with the same Memory, N and PC take the same fault, or the instruction retires in both. -/
theorem exec_congr_cases {i : Instr} {t t' : State} (h : exec i s = .next t) (h' : exec i s' = .next t') :
    (∃ x, t = s.takeFault x ∧ t' = s'.takeFault x) ∨ (RetiresTo i s t ∧ RetiresTo i s' t') := by
  obtain ⟨r, hr, hr'⟩ := exec_eq_complete_congr hmem hpc hN i
  rcases complete_fault_or_retires hN r with ⟨x, hx, hx'⟩ | ⟨u, u', hu, hu', hc, hc'⟩
  · refine .inl ⟨x, ?_, ?_⟩
    · exact Host.Outcome.next.inj (h.symm.trans (hr.trans hx))
    · exact Host.Outcome.next.inj (h'.symm.trans (hr'.trans hx'))
  · obtain rfl : t = u := Host.Outcome.next.inj (h.symm.trans (hr.trans hu))
    obtain rfl : t' = u' := Host.Outcome.next.inj (h'.symm.trans (hr'.trans hu'))
    exact .inr ⟨retiresTo_of_stepCount h hc, retiresTo_of_stepCount h' hc'⟩

end

/-- Settles O34: Memory, N and PC decide between the same fault and a retirement, and of the latter the next PC, the
word written and the event. -/
theorem outcomeDependsOnMemoryAndPc : Obligations.OutcomeDependsOnMemoryAndPc := by
  intro i s s' t t' hmem hN hpc h h'
  rcases exec_congr_cases hmem hpc hN h h' with ⟨x, rfl, rfl⟩ | ⟨hret, hret'⟩
  · refine ⟨hpc, Nat.add_comm _ _, fun _ => ⟨hmem, [.halted ⟨x.cause.toCause, s.pc, x.info⟩], rfl, ?_⟩⟩
    rw [hpc]
    rfl
  · have hc := hret.stepCount
    have hc' := hret'.stepCount
    refine ⟨?_, by omega, fun hi => ⟨?_, _, hret.trace hi, ?_⟩⟩
    · rw [hret.pc, hret'.pc, nextPC_congr hmem hpc]
    · rw [exec_mem_of_retired h hc, exec_mem_of_retired h' hc', State.memAfter_congr hmem hpc hi]
    · rw [hret'.trace hi, nextPC_congr hmem hpc, eventOf_congr hmem]

end Sys2Proof.Machine
end

section
/-! PROOFS. The control-transfer family (spec/41_control_transfer.md): the three ends of a jump through memory (R110,
R112), which a taken JIF shares (R113), SAVEPC's store (R114) and HALT (R111). -/

namespace Sys2Proof.Machine

/-! ### A jump through memory -/

theorem jumpTarget_addressError {s : State} {a : Word} (ha : ¬ s.hasWord a) :
    jumpTarget s a = .error ⟨.addressError, a⟩ := by
  rw [jumpTarget, memRead_error ha]
  rfl

theorem jumpTarget_misaligned {s : State} {a : Word} (ha : s.hasWord a) (ht : (s.at a).toNat % 4 ≠ 0) :
    jumpTarget s a = .error ⟨.misalignedTarget, s.at a⟩ := by
  rw [jumpTarget, memRead_ok ha]
  exact checkTarget_error ht

theorem exec_jmp (a : Word) (s : State) : exec (.jmp a) s = s.complete ((jumpTarget s a).map jumpTo) := rfl

theorem exec_jmp_retires {s : State} {a : Word} (ha : s.hasWord a) (ht : (s.at a).toNat % 4 = 0) :
    exec (.jmp a) s = .next (s.retire (s.at a)) := by
  rw [exec_jmp, jumpTarget_ok ha ht]
  exact complete_no_write s (s.at a) .none

theorem exec_jmp_error {s : State} {a : Word} {x : Raised} (h : jumpTarget s a = .error x) :
    exec (.jmp a) s = .next (s.haltedBy x.cause.toCause x.info) := by
  rw [exec_jmp, h, ← State.takeFault_eq_haltedBy]
  exact complete_error s x

theorem exec_jmp_addressError {s : State} {a : Word} (ha : ¬ s.hasWord a) :
    exec (.jmp a) s = .next (s.haltedBy .addressError a) :=
  exec_jmp_error (jumpTarget_addressError ha)

theorem exec_jmp_misaligned {s : State} {a : Word} (ha : s.hasWord a) (ht : (s.at a).toNat % 4 ≠ 0) :
    exec (.jmp a) s = .next (s.haltedBy .misalignedTarget (s.at a)) :=
  exec_jmp_error (jumpTarget_misaligned ha ht)

/-- Settles O12: a jump retires, finds no word at A, or finds a target that is no multiple of 4. -/
theorem jmpGoesThroughMemory : Obligations.JmpGoesThroughMemory :=
  fun _ _ _ _ => ⟨rfl, exec_jmp_retires, exec_jmp_addressError, exec_jmp_misaligned⟩

/-! ### The conditional branch -/

theorem exec_jif_of_hasWord {s : State} {b : Word} (a : Word) (hb : s.hasWord b) :
    exec (.jif a b) s =
      s.complete (if s.at b = 0 then (jumpTarget s a).map jumpTo else .ok (goOn s .none)) := by
  rw [exec, execJif, direct, memRead_ok hb]
  rfl

theorem exec_jif_addressError {s : State} {b : Word} (a : Word) (hb : ¬ s.hasWord b) :
    exec (.jif a b) s = .next (s.haltedBy .addressError b) := by
  rw [exec, execJif, direct, memRead_error hb]
  exact complete_error s ⟨.addressError, b⟩

theorem exec_jif_falls_through {s : State} {b : Word} (a : Word) (hb : s.hasWord b) (h0 : s.at b ≠ 0) :
    exec (.jif a b) s = .next (s.retire (s.pc + 4)) := by
  rw [exec_jif_of_hasWord a hb, if_neg h0]
  exact complete_no_write s (s.pc + 4) .none

/-- R113: a taken JIF is a JMP through A. -/
theorem exec_jif_taken {s : State} {b : Word} (a : Word) (hb : s.hasWord b) (h0 : s.at b = 0) :
    exec (.jif a b) s = exec (.jmp a) s := by
  rw [exec_jif_of_hasWord a hb, if_pos h0, exec_jmp]

/-- Settles O13: the word at B is read first; where it is 0, the three ends are those of a JMP through A. -/
theorem jifBranchesOnZero : Obligations.JifBranchesOnZero := by
  intro s a b c
  refine ⟨rfl, exec_jif_falls_through a, ?_, exec_jif_addressError a, ?_, ?_⟩
  · intro hb h0 ha ht
    exact (exec_jif_taken a hb h0).trans (exec_jmp_retires ha ht)
  · intro hb h0 ha
    exact (exec_jif_taken a hb h0).trans (exec_jmp_addressError ha)
  · intro hb h0 ha ht
    exact (exec_jif_taken a hb h0).trans (exec_jmp_misaligned ha ht)

/-! ### A store -/

/-- R93, R94, R95: the effect that stores one word and goes on does just that, where the word exists. -/
theorem storesAndGoesOn_complete {s : State} {a : Word} (v : Word) (ha : s.hasWord a) :
    StoresAndGoesOn s (s.complete (.ok (storeAndGoOn s a v))) a v :=
  ⟨_, complete_storeAndGoOn ha, State.wordAt_write s a.toNat v, rfl⟩

theorem complete_storeAndGoOn_haltedBy {s : State} {a : Word} (v : Word) (ha : ¬ s.hasWord a) :
    s.complete (.ok (storeAndGoOn s a v)) = .next (s.haltedBy .addressError a) :=
  complete_storeAndGoOn_error ha

/-- Settles O14: SAVEPC's effect is the store of PC at A. -/
theorem savepcStoresItsOwnAddress : Obligations.SavepcStoresItsOwnAddress := by
  intro s a b c
  have hexec : exec (.savepc a) s = s.complete (.ok (storeAndGoOn s a s.pc)) := rfl
  rw [hexec]
  exact ⟨rfl, storesAndGoesOn_complete s.pc, complete_storeAndGoOn_haltedBy s.pc⟩

/-! ### HALT -/

theorem exec_halt (s : State) : exec .halt s = .next ((s.retire s.pc).haltWith .haltInstr 0) :=
  complete_no_write s s.pc .halt

/-- Settles O11: HALT retires at its own PC, and the controller halts the retired state. -/
theorem haltRetiresAndHalts : Obligations.HaltRetiresAndHalts :=
  fun s _ _ _ => ⟨rfl, exec_halt s⟩

end Sys2Proof.Machine
end

section
/-! PROOFS. The data-movement family (spec/42_data_movement.md): MOV's three ends (R121). Once the pointer word at B
exists, LOAD is the MOV from the address it names (R122), and STORE the MOV to that address (R123). -/

namespace Sys2Proof.Machine

/-! ### The copy of a word -/

theorem exec_mov_of_hasWord {s : State} {b : Word} (a : Word) (hb : s.hasWord b) :
    exec (.mov a b) s = s.complete (.ok (storeAndGoOn s a (s.at b))) := by
  rw [exec, execMov, direct, memRead_ok hb]
  rfl

theorem exec_mov_stores {s : State} {a b : Word} (hb : s.hasWord b) (ha : s.hasWord a) :
    StoresAndGoesOn s (exec (.mov a b) s) a (s.at b) := by
  rw [exec_mov_of_hasWord a hb]
  exact storesAndGoesOn_complete (s.at b) ha

theorem exec_mov_addressError_source {s : State} {b : Word} (a : Word) (hb : ¬ s.hasWord b) :
    exec (.mov a b) s = .next (s.haltedBy .addressError b) := by
  rw [exec, execMov, direct, memRead_error hb]
  exact complete_error s ⟨.addressError, b⟩

theorem exec_mov_addressError_target {s : State} {a b : Word} (hb : s.hasWord b) (ha : ¬ s.hasWord a) :
    exec (.mov a b) s = .next (s.haltedBy .addressError a) :=
  (exec_mov_of_hasWord a hb).trans (complete_storeAndGoOn_haltedBy (s.at b) ha)

/-- Settles O15: MOV stores the word at B, or finds no word at B, or else none at A. -/
theorem movCopiesAWord : Obligations.MovCopiesAWord :=
  fun _ a _ _ => ⟨rfl, exec_mov_stores, exec_mov_addressError_source a, exec_mov_addressError_target⟩

/-! ### The load through a pointer -/

theorem exec_load_of_hasWord {s : State} {b : Word} (a : Word) (hb : s.hasWord b) :
    exec (.load a b) s = exec (.mov a (s.at b)) s := by
  change execLoad a b s = _
  rw [execLoad, indirect, memRead_ok hb]
  rfl

theorem exec_load_addressError {s : State} {b : Word} (a : Word) (hb : ¬ s.hasWord b) :
    exec (.load a b) s = .next (s.haltedBy .addressError b) := by
  rw [exec, execLoad, indirect, memRead_error hb]
  exact complete_error s ⟨.addressError, b⟩

/-- Settles O16: the pointer word is read first; where it exists, the ends are those of the MOV from its address. -/
theorem loadReadsThroughThePointer : Obligations.LoadReadsThroughThePointer := by
  intro s a b c
  refine ⟨rfl, ?_, exec_load_addressError a, ?_, ?_⟩
  · intro hb hp ha
    rw [exec_load_of_hasWord a hb]
    exact exec_mov_stores hp ha
  · intro hb hp
    exact (exec_load_of_hasWord a hb).trans (exec_mov_addressError_source a hp)
  · intro hb hp ha
    exact (exec_load_of_hasWord a hb).trans (exec_mov_addressError_target hp ha)

/-! ### The store through a pointer -/

theorem exec_store_of_hasWord {s : State} {b : Word} (a : Word) (hb : s.hasWord b) :
    exec (.store a b) s = exec (.mov (s.at b) a) s := by
  change execStore a b s = _
  rw [execStore, direct, memRead_ok hb]
  rfl

theorem exec_store_addressError {s : State} {b : Word} (a : Word) (hb : ¬ s.hasWord b) :
    exec (.store a b) s = .next (s.haltedBy .addressError b) := by
  rw [exec, execStore, direct, memRead_error hb]
  exact complete_error s ⟨.addressError, b⟩

/-- Settles O17: the pointer word is read first; where it exists, the ends are those of the MOV to its address. -/
theorem storeWritesThroughThePointer : Obligations.StoreWritesThroughThePointer := by
  intro s a b c
  refine ⟨rfl, ?_, exec_store_addressError a, ?_, ?_⟩
  · intro hb ha hp
    rw [exec_store_of_hasWord a hb]
    exact exec_mov_stores ha hp
  · intro hb ha
    exact (exec_store_of_hasWord a hb).trans (exec_mov_addressError_source (s.at b) ha)
  · intro hb ha hp
    exact (exec_store_of_hasWord a hb).trans (exec_mov_addressError_target ha hp)

end Sys2Proof.Machine
end

section
/-! PROOFS. The arithmetic and logic family (spec/43_arithmetic_logic.md): each ALU operation over the naturals (R130),
the ends that all instructions reading B and C share (R131 to R136), and NAND's, whose second operand is A (R137). -/

namespace Sys2Proof.Machine

/-! ### The ALU over the naturals -/

theorem aluAdd_eq_ofNat (x y : Word) : aluAdd x y = BitVec.ofNat 32 (x.toNat + y.toNat) := BitVec.add_def x y

/-- R130: where the difference is below 0, 2^32 is added to it. -/
theorem aluSub_eq_ofNat (x y : Word) :
    aluSub x y = BitVec.ofNat 32
      (if y.toNat ≤ x.toNat then x.toNat - y.toNat else 4294967296 + x.toNat - y.toNat) := by
  apply BitVec.eq_of_toNat_eq
  rw [aluSub, BitVec.toNat_sub, BitVec.toNat_ofNat]
  split <;> omega

theorem aluMul_eq_ofNat (x y : Word) : aluMul x y = BitVec.ofNat 32 (x.toNat * y.toNat) := BitVec.mul_def

theorem aluDiv_eq_ofNat (x y : Word) : aluDiv x y = BitVec.ofNat 32 (x.toNat / y.toNat) := BitVec.udiv_def

theorem aluMod_eq_ofNat (x y : Word) : aluMod x y = BitVec.ofNat 32 (x.toNat % y.toNat) := BitVec.umod_def

theorem aluLt_eq_ite (x y : Word) : aluLt x y = if x.toNat < y.toNat then 1 else 0 := rfl

theorem aluNand_eq_ofNat (x y : Word) : aluNand x y = BitVec.ofNat 32 (4294967295 - (x &&& y).toNat) := by
  apply BitVec.eq_of_toNat_eq
  rw [aluNand, BitVec.toNat_not, BitVec.toNat_ofNat]
  omega

/-! ### Two operands read, one result stored -/

section
variable {i : Instr} {s : State} {a b c : Word} {f : Word → Word → Word}

/-- R131: the operands are looked at in the order B, C, and A only for the write. -/
theorem binaryMeaning_of_exec (hx : exec i s = s.complete (binary s a b c f)) :
    BinaryMeaning i s a b c (f (s.at b) (s.at c)) := by
  rw [BinaryMeaning, hx]
  refine ⟨?_, ?_, ?_, ?_⟩
  · intro hb hc ha
    rw [binary_ok f hb hc]
    exact storesAndGoesOn_complete _ ha
  · intro hb
    rw [binary_error_left f hb]
    exact complete_error s ⟨.addressError, b⟩
  · intro hb hc
    rw [binary_error_right f hb hc]
    exact complete_error s ⟨.addressError, c⟩
  · intro hb hc ha
    rw [binary_ok f hb hc]
    exact complete_storeAndGoOn_haltedBy _ ha

/-- R134: the divisor is looked at once both operands are read, and A only after it. -/
theorem dividingMeaning_of_exec (hx : exec i s = s.complete (dividing s a b c f)) :
    DividingMeaning i s a b c (f (s.at b) (s.at c)) := by
  rw [DividingMeaning, hx]
  refine ⟨?_, ?_, ?_, ?_, ?_⟩
  · intro hb hc h0 ha
    rw [dividing_ok f hb hc h0]
    exact storesAndGoesOn_complete _ ha
  · intro hb
    rw [dividing_error_left f hb]
    exact complete_error s ⟨.addressError, b⟩
  · intro hb hc
    rw [dividing_error_right f hb hc]
    exact complete_error s ⟨.addressError, c⟩
  · intro hb hc h0
    rw [dividing_error_zero f hb hc h0]
    exact complete_error s ⟨.divideByZero, c⟩
  · intro hb hc h0 ha
    rw [dividing_ok f hb hc h0]
    exact complete_storeAndGoOn_haltedBy _ ha

end

/-! ### The seven instructions -/

/-- Settles O18: ADD is the binary instruction of the wrapped sum. -/
theorem addWrapsTheSum : Obligations.AddWrapsTheSum := by
  intro s a b c
  rw [← aluAdd_eq_ofNat]
  exact ⟨rfl, binaryMeaning_of_exec rfl⟩

/-- Settles O19: SUB is the binary instruction of the wrapped difference. -/
theorem subWrapsTheDifference : Obligations.SubWrapsTheDifference := by
  intro s a b c
  rw [← aluSub_eq_ofNat]
  exact ⟨rfl, binaryMeaning_of_exec rfl⟩

/-- Settles O20: MUL is the binary instruction of the product's low word. -/
theorem mulKeepsTheLowWord : Obligations.MulKeepsTheLowWord := by
  intro s a b c
  rw [← aluMul_eq_ofNat]
  exact ⟨rfl, binaryMeaning_of_exec rfl⟩

/-- Settles O21: DIV is the dividing instruction of the quotient. -/
theorem divGivesTheFloor : Obligations.DivGivesTheFloor := by
  intro s a b c
  rw [← aluDiv_eq_ofNat]
  exact ⟨rfl, dividingMeaning_of_exec rfl⟩

/-- Settles O22: MOD is the dividing instruction of the remainder. -/
theorem modGivesTheRemainder : Obligations.ModGivesTheRemainder := by
  intro s a b c
  rw [← aluMod_eq_ofNat]
  exact ⟨rfl, dividingMeaning_of_exec rfl⟩

/-- Settles O23: LT is the binary instruction of the unsigned comparison. -/
theorem ltComparesUnsigned : Obligations.LtComparesUnsigned := by
  intro s a b c
  rw [← aluLt_eq_ite]
  exact ⟨rfl, binaryMeaning_of_exec rfl⟩

/-- Settles O24: NAND is the binary instruction whose second operand is A itself, so the word there is read before the
write and a missing one is found at that read. -/
theorem nandUsesTheOldValueAtA : Obligations.NandUsesTheOldValueAtA := by
  intro s a b c
  rw [← aluNand_eq_ofNat]
  obtain ⟨hstores, hsource, htarget, -⟩ : BinaryMeaning (.nand a b) s a b a (aluNand (s.at b) (s.at a)) :=
    binaryMeaning_of_exec rfl
  exact ⟨rfl, fun hb ha => hstores hb ha ha, hsource, htarget⟩

end Sys2Proof.Machine
end

section
/-! PROOFS. The family of the host's events (spec/44_io_events.md): DRAW (R151), READ, which retires before the
controller reacts to it (R152), and PRINT (R153), with the ends of a missing address (R51). -/

namespace Sys2Proof.Machine

/-! ### READ -/

theorem exec_read_of_hasWord {s : State} {a : Word} (ha : s.hasWord a) :
    exec (.read a) s = .next ((s.retire (s.pc + 4)).react (.keyboard a)) := by
  rw [exec, execRead, checkAddr_ok ha]
  exact complete_no_write s (s.pc + 4) (.keyboard a)

theorem exec_read_addressError {s : State} {a : Word} (ha : ¬ s.hasWord a) :
    exec (.read a) s = .next (s.haltedBy .addressError a) := by
  rw [exec, execRead, checkAddr_error ha]
  exact complete_error s ⟨.addressError, a⟩

/-- R168, R169: the reaction to a READ writes no word but the one at A, and that one only with a key queued. -/
theorem State.react_keyboard_wordAt (s : State) (a : Word) {x : Nat} (hx : x ≠ a.toNat ∨ s.queue = []) :
    (s.react (.keyboard a)).wordAt x = s.wordAt x := by
  change (s.reactKeyboard a).wordAt x = s.wordAt x
  rcases s.reactKeyboard_cases a with ⟨k, rest, hq, heq⟩ | ⟨-, heq⟩
  · have hxa : x ≠ a.toNat := hx.resolve_right (by simp [hq])
    have hmem : (s.reactKeyboard a).mem = s.mem.write a.toNat k := by rw [heq]
    rw [State.wordAt_of_mem_write hmem, State.wordAfter, if_neg hxa]
  · rw [heq]
    rfl

/-- Settles O26: READ's next state is the controller's reaction to the retired state, which keeps its PC, its StepCount
and every word but the one a queued key is written to. -/
theorem readRetiresOrFaults : Obligations.ReadRetiresOrFaults := by
  intro s a b c
  refine ⟨rfl, fun ha => ⟨_, exec_read_of_hasWord ha, ?_, ?_, ?_⟩, exec_read_addressError⟩
  · exact State.react_pc (s.retire (s.pc + 4)) (.keyboard a)
  · exact State.react_stepCount (s.retire (s.pc + 4)) (.keyboard a)
  · intro x hx
    exact State.react_keyboard_wordAt (s.retire (s.pc + 4)) a hx

/-! ### PRINT -/

theorem exec_print_of_hasWord {s : State} {a : Word} (ha : s.hasWord a) :
    exec (.print a) s = .next ((s.retire (s.pc + 4)).emit (.print (s.at a))) := by
  rw [exec, execPrint, direct, memRead_ok ha]
  exact complete_no_write s (s.pc + 4) (.print (s.at a))

theorem exec_print_addressError {s : State} {a : Word} (ha : ¬ s.hasWord a) :
    exec (.print a) s = .next (s.haltedBy .addressError a) := by
  rw [exec, execPrint, direct, memRead_error ha]
  exact complete_error s ⟨.addressError, a⟩

/-- Settles O29: PRINT reads the word at A, retires and outputs it, or finds no word there. -/
theorem printOutputsTheWord : Obligations.PrintOutputsTheWord :=
  fun _ _ _ _ => ⟨rfl, exec_print_of_hasWord, exec_print_addressError⟩

/-! ### DRAW -/

theorem exec_draw (s : State) : exec .draw s = .next ((s.retire (s.pc + 4)).react .draw) :=
  complete_no_write s (s.pc + 4) .draw

/-- Settles O25: DRAW retires, and the controller yields with the retired state. -/
theorem drawYieldsToTheHost : Obligations.DrawYieldsToTheHost :=
  fun s _ _ _ => ⟨rfl, exec_draw s⟩

end Sys2Proof.Machine
end

section
/-! PROOFS. The execution-controller family (spec/45_execution_controller.md): the budget check and the waiting states
(R163, R184), the reaction to an event (R165 to R170), the host's inputs in every mode (R171 to R177), one instruction
between two commands (R163, R173, R175), and what a transition does to the trace and the queue (R162, R178). -/

namespace Sys2Proof.Machine

/-! ### The block's turn -/

theorem State.internal_of_budget_reached {s : State} {n : Nat} (hm : s.mode = .running .active)
    (hb : s.stepBudget = .finite n) (hn : n ≤ s.stepCount) : s.internal = .next s.takeBreak := by
  simp [State.internal, State.isActive, State.budgetReached, hm, hb, hn]

/-- R163: on the block's turn with a finite budget reached the transition is the break. -/
theorem step_of_budget_reached {s : State} {rest : List Move} {n : Nat} (hturn : s.blockTurn rest)
    (hm : s.mode = .running .active) (hb : s.stepBudget = .finite n) (hn : n ≤ s.stepCount) :
    step s = .next { s with mode := .paused, trace := s.trace ++ [.paused], schedule := rest } :=
  (step_of_blockTurn hturn hm).trans (State.internal_of_budget_reached (s := { s with schedule := rest }) hm hb hn)

/-- Settles O9: the budget reached makes the transition the break, and the budget not reached the executor step. -/
theorem budgetCheckComesFirst : Obligations.BudgetCheckComesFirst :=
  fun _ _ hturn => ⟨fun _ hm hb hn => step_of_budget_reached hturn hm hb hn, step_of_execEnabled hturn⟩

theorem State.isActive_eq_false {s : State} (hm : s.mode ≠ .running .active) : s.isActive = false :=
  decide_eq_false hm

/-- R164: an executor step always answers a next state, a fault being one. -/
theorem State.execStep_isNext (s : State) : ∃ t, s.execStep = .next t := by
  unfold State.execStep
  split
  · exact ⟨_, rfl⟩
  · unfold State.execLatched
    split
    · exact exec_isNext _ _
    · exact ⟨_, rfl⟩

theorem State.internal_isNext {s : State} (hm : s.mode = .running .active) : ∃ t, s.internal = .next t := by
  obtain ⟨t, ht⟩ := s.execStep_isNext
  simp only [State.internal, State.isActive, hm, decide_true, if_true]
  cases s.budgetReached with
  | true => exact ⟨_, rfl⟩
  | false => exact ⟨t, ht⟩

/-- Settles O10: outside Running(Active) the internal transition is the stop and a scheduled turn passes; in it, the
break and the executor step both answer a next state. -/
theorem waitingStatesNeedTheHost : Obligations.WaitingStatesNeedTheHost := by
  refine fun s => ⟨fun hm hs => ?_, fun rest hm hs => ?_, fun rest hm hturn => ?_⟩
  · simp only [step, State.advance, hs, State.internal, State.isActive_eq_false hm, Bool.false_eq_true, if_false]
  · simp only [step, State.advance, hs, State.isActive_eq_false hm, Bool.false_eq_true, if_false]
  · rw [step_of_blockTurn hturn hm]
    exact State.internal_isNext (s := { s with schedule := rest }) hm

/-! ### The reaction to an event -/

theorem State.reactKeyboard_of_cons {s : State} {k : Word} {keys : List Word} (a : Word) (hq : s.queue = k :: keys) :
    s.reactKeyboard a = { s with queue := keys, mem := s.mem.write a.toNat k } := by
  simp only [State.reactKeyboard, hq]

theorem State.reactKeyboard_of_nil {s : State} (a : Word) (hq : s.queue = []) :
    s.reactKeyboard a = State.emit { s with mode := .blocked s.stepBudget.resume a } (.blocked a) := by
  simp only [State.reactKeyboard, hq]

theorem Budget.resume_eq_ite (b : Budget) : b.resume = if b = .unlimited then .many else .one := by
  cases b with
  | finite n => simp [Budget.resume]
  | unlimited => rfl

/-- Settles O27: the retired READ's reaction takes the head of the queue and writes it at A. -/
theorem readTakesTheOldestKey : Obligations.ReadTakesTheOldestKey := by
  intro s a k keys ha hq
  have hreact := State.reactKeyboard_of_cons (s := s.retire (s.pc + 4)) a hq
  exact ⟨_, (exec_read_of_hasWord ha).trans (congrArg _ hreact), State.wordAt_write s a.toNat k, rfl⟩

/-- Settles O28: the retired READ's reaction blocks, and the budget says how it resumes. -/
theorem readBlocksOnAnEmptyQueue : Obligations.ReadBlocksOnAnEmptyQueue := by
  intro s a ha hq
  have hreact := State.reactKeyboard_of_nil (s := s.retire (s.pc + 4)) a hq
  rw [← Budget.resume_eq_ite]
  exact (exec_read_of_hasWord ha).trans (congrArg _ hreact)

/-- R165 to R170: what the reaction to each event makes of Mode and Diag. -/
theorem State.react_mode_cases (s : State) (ev : Event) :
    ((s.react ev).mode = s.mode ∧ (s.react ev).diag = s.diag) ∨
    (ev = .draw ∧ (s.react ev).mode = .running .yielded ∧ (s.react ev).diag = s.diag) ∨
    (∃ a r, ev = .keyboard a ∧ s.queue = [] ∧ (s.react ev).mode = .blocked r a ∧ (s.react ev).diag = s.diag) ∨
    (ev = .halt ∧ (s.react ev).mode = .halted ∧ (s.react ev).diag = ⟨.haltInstr, s.pc, 0⟩) := by
  cases ev with
  | none => exact .inl ⟨rfl, rfl⟩
  | draw => exact .inr (.inl ⟨rfl, rfl, rfl⟩)
  | keyboard a =>
    rcases s.reactKeyboard_cases a with ⟨k, rest, -, heq⟩ | ⟨hq, heq⟩
    · rw [State.react, heq]; exact .inl ⟨rfl, rfl⟩
    · rw [State.react, heq]; exact .inr (.inr (.inl ⟨a, _, rfl, hq, rfl, rfl⟩))
  | print v => exact .inl ⟨rfl, rfl⟩
  | halt => exact .inr (.inr (.inr ⟨rfl, rfl, rfl⟩))

theorem eq_draw_of_eventOf {i : Instr} {s : State} (h : eventOf s i = .draw) : i = .draw := by
  cases i with
  | draw => rfl
  | _ => cases h

/-- Settles O35: a fault halts with its own cause, and a retired instruction's event decides the rest: each event that
changes Mode is of one instruction only, and HALT keeps its PC. -/
theorem onlyTheseEventsChangeTheMode : Obligations.OnlyTheseEventsChangeTheMode := by
  intro i s t hx
  rcases exec_next_cases hx with ⟨x, rfl⟩ | ⟨m, -, -, rfl⟩
  · exact .inr (.inr (.inr (.inr ⟨rfl, rfl, x.cause.toCause_ne_none, x.cause.toCause_ne_haltInstr⟩)))
  · rcases State.react_mode_cases (State.retire { s with mem := m } (nextPC s i)) (eventOf s i) with
      hsame | ⟨hev, hyield⟩ | ⟨a, r, hev, hblock⟩ | ⟨hev, hhalt⟩
    · exact .inl hsame
    · exact .inr (.inl ⟨eq_draw_of_eventOf hev, hyield⟩)
    · exact .inr (.inr (.inl ⟨a, r, eq_read_of_eventOf hev, hblock⟩))
    · obtain rfl := eq_halt_of_eventOf hev
      exact .inr (.inr (.inr (.inl ⟨rfl, hhalt⟩)))

/-! ### The host's commands -/

/-- R160: the transition of a scheduled host input, once the reaction to the input is known. -/
theorem step_of_onInput {s t : State} {e : HostInput} {rest : List Move} (hs : s.schedule = .host e :: rest)
    (ht : State.onInput { s with schedule := rest } e = t) : step s = .next t :=
  ht ▸ step_of_host hs

theorem State.onStart_of_blocked {s : State} {r : Resume} {a : Word} (hm : s.mode = .blocked r a) :
    s.onStart = { s with mode := .blocked .many a } := by
  simp only [State.onStart, hm]

theorem State.onStart_of_halted {s : State} (hm : s.mode = .halted) : s.onStart = s.initAction.runWith .unlimited := by
  simp only [State.onStart, hm]

theorem State.onStep_of_blocked {s : State} {r : Resume} {a : Word} (hm : s.mode = .blocked r a) :
    s.onStep = { s with mode := .blocked .one a } := by
  simp only [State.onStep, hm]

theorem State.onStep_of_halted {s : State} (hm : s.mode = .halted) :
    s.onStep = s.initAction.runWith s.initAction.oneMore := by
  simp only [State.onStep, hm]

section
variable {s : State} (hhalted : s.mode ≠ .halted) (hblocked : ∀ r a, s.mode ≠ .blocked r a)
include hhalted hblocked

/-- R172: in Init, Running and Paused. -/
theorem State.onStart_eq_runWith : s.onStart = s.runWith .unlimited := by
  rcases s.onStart_cases with ⟨hm, -⟩ | ⟨r, a, hm, -⟩ | ⟨-, heq⟩
  · exact absurd hm hhalted
  · exact absurd hm (hblocked r a)
  · exact heq

/-- R173: in Init, Running and Paused. -/
theorem State.onStep_eq_runWith : s.onStep = s.runWith s.oneMore := by
  rcases s.onStep_cases with ⟨hm, -⟩ | ⟨r, a, hm, -⟩ | ⟨-, heq⟩
  · exact absurd hm hhalted
  · exact absurd hm (hblocked r a)
  · exact heq

end

/-- R261, R262: Memory after the Init action holds IMAGE, and 0 beyond it. -/
theorem State.initAction_wordAt (s : State) (x : Nat) : s.initAction.wordAt x = s.image.getD x 0 := by
  rw [State.wordAt_eq, State.initAction_mem, Memory.read_placeAt, if_pos (Nat.zero_le x), Nat.sub_zero]

/-- R261: the Init action, with the Mode and StepBudget that its transition then sets. -/
theorem initLeaves_initAction (s : State) (m : Mode) (b : Budget) (rest : List Move) :
    InitLeaves s { State.initAction { s with schedule := rest } with mode := m, stepBudget := b } m b rest :=
  ⟨State.initAction_wordAt s, .inr rfl, rfl⟩

/-- Settles O37: the three reactions to `start`. -/
theorem startRunsWithoutABudget : Obligations.StartRunsWithoutABudget := by
  refine fun s rest hs => ⟨fun r a hm => ?_, fun hm => ⟨_, ?_, initLeaves_initAction s _ _ rest⟩, fun hh hb => ?_⟩
  · exact step_of_onInput hs (State.onStart_of_blocked (s := { s with schedule := rest }) hm)
  · exact step_of_onInput hs (State.onStart_of_halted (s := { s with schedule := rest }) hm)
  · exact step_of_onInput hs (State.onStart_eq_runWith (s := { s with schedule := rest }) hh hb)

/-- Settles O38: the three reactions to `step`; after the Init action StepCount + 1 is 1. -/
theorem stepRunsWithABudgetOfOne : Obligations.StepRunsWithABudgetOfOne := by
  refine fun s rest hs => ⟨fun r a hm => ?_, fun hm => ⟨_, ?_, initLeaves_initAction s _ _ rest⟩, fun hh hb => ?_⟩
  · exact step_of_onInput hs (State.onStep_of_blocked (s := { s with schedule := rest }) hm)
  · exact step_of_onInput hs (State.onStep_of_halted (s := { s with schedule := rest }) hm)
  · exact step_of_onInput hs (State.onStep_eq_runWith (s := { s with schedule := rest }) hh hb)

/-- Settles O39: the reaction to `reload` is the Init action. -/
theorem reloadAlwaysReturnsToInit : Obligations.ReloadAlwaysReturnsToInit :=
  fun s rest hs => ⟨_, step_of_host hs, initLeaves_initAction s .init (.finite 0) rest⟩

/-- Settles O41: a continuation is pending in Running(Yielded) alone. -/
theorem tickFiresOnlyAPendingContinuation : Obligations.TickFiresOnlyAPendingContinuation := by
  refine fun s rest hs => ⟨fun hm => step_of_onInput hs ?_, fun hm => step_of_onInput hs ?_⟩
  · simp only [State.onInput, State.onTick, hm]
  · rcases State.onTick_cases { s with schedule := rest } with ⟨hm', -⟩ | heq
    · exact absurd hm' hm
    · exact heq

/-! ### Keys -/

theorem queuePush_of_length_ne {cap : Nat} {q : List Word} (k : Word) (h : q.length ≠ cap) :
    queuePush cap q k = q ++ [k] := by
  rw [queuePush, if_neg h]

theorem queuePush_of_length_eq {cap : Nat} {q : List Word} (k : Word) (h : q.length = cap) :
    queuePush cap q k = q.tail ++ [k] := by
  rw [queuePush, if_pos h]

theorem State.onKey_of_not_blocked {s : State} (k : Word) (hm : ∀ r a, s.mode ≠ .blocked r a) :
    s.onKey k = { s with queue := queuePush s.queueCap s.queue k } := by
  rcases s.onKey_cases k with ⟨r, a, hm', -⟩ | ⟨-, heq⟩
  · exact absurd hm' (hm r a)
  · exact heq

theorem step_of_key_not_blocked {s : State} {rest : List Move} {k : Word} (hs : s.schedule = .host (.key k) :: rest)
    (hm : ∀ r a, s.mode ≠ .blocked r a) :
    step s = .next { s with queue := queuePush s.queueCap s.queue k, schedule := rest } :=
  step_of_onInput hs (State.onKey_of_not_blocked (s := { s with schedule := rest }) k hm)

/-- Settles O43: the key is pushed, and a full queue drops its head. -/
theorem keyIsQueuedOutsideBlocked : Obligations.KeyIsQueuedOutsideBlocked := by
  refine fun s rest k hs hm => ⟨fun hlen => ?_, fun old keys hq hlen => ?_⟩
  · rw [step_of_key_not_blocked hs hm, queuePush_of_length_ne k hlen]
  · rw [step_of_key_not_blocked hs hm, queuePush_of_length_eq k hlen, hq, List.tail_cons]

/-! ### One instruction, and the block pauses again -/

theorem core_run_succ {s t : State} (h : step s = .next t) (k : Nat) :
    Sys2Proof.core.run (k + 1) s = Sys2Proof.core.run k t := by
  have hcore : Sys2Proof.core.step s = .next t := h
  simp only [Host.Core.run, hcore]

/-- R95, R233: an instruction that does not end in Halted has retired. -/
theorem exec_stepCount_of_not_halted {i : Instr} {s t : State} (h : exec i s = .next t) (ht : t.mode ≠ .halted) :
    t.stepCount = s.stepCount + 1 := by
  rcases exec_next_cases h with ⟨x, rfl⟩ | hret
  · exact absurd rfl ht
  · exact hret.stepCount

/-- R163: in Running(Active) with a budget of one more instruction, two turns of the block are that instruction and the
break, where the instruction leaves the block in Running(Active). -/
theorem core_run_oneMore {u t : State} {later : List Move} {i : Instr} (hm : u.mode = .running .active)
    (hb : u.stepBudget = u.oneMore) (hs : u.schedule = .block :: .block :: later) (hpc : u.pc.toNat + 3 < u.memSize)
    (hi : decode u.fetchWords = .ok i) (hx : exec i (u.fetched (.block :: later)) = .next t)
    (ht : t.mode = .running .active) :
    Sys2Proof.core.run 2 u = .next { t with mode := .paused, trace := t.trace ++ [.paused], schedule := later } ∧
      t.stepCount = u.stepCount + 1 := by
  have hen : u.execEnabled := ⟨hm, fun n hn => by cases hb.symm.trans hn; exact Nat.lt_succ_self _⟩
  have hexec : step u = .next t := (stepRunsTheDecodedInstruction u _ i (.inr hs) hen hpc hi).trans hx
  have hcount : t.stepCount = u.stepCount + 1 :=
    exec_stepCount_of_not_halted (s := u.fetched (.block :: later)) hx (by simp [ht])
  have hset := exec_sameSetting hx
  have hbudget : t.stepBudget = .finite (u.stepCount + 1) := hset.stepBudget.trans hb
  have hbreak := step_of_budget_reached (.inr hset.schedule) ht hbudget hcount.ge
  exact ⟨(core_run_succ hexec 1).trans (core_run_succ hbreak 0), hcount⟩

/-- Settles O44: `step` in Paused sets the budget of one more instruction. -/
theorem singleStepRunsOneInstruction : Obligations.SingleStepRunsOneInstruction := by
  intro s u t rest i hm hs hu hpc hi hx ht
  subst hu
  obtain ⟨-, -, hstep⟩ := stepRunsWithABudgetOfOne s _ hs
  rw [core_run_succ (hstep (by simp [hm]) (by simp [hm])) 2]
  exact core_run_oneMore rfl rfl rfl hpc hi hx ht

theorem State.resumeBudget_eq_ite (s : State) (r : Resume) :
    s.resumeBudget r = if r = .one then .finite (s.stepCount + 1) else .unlimited := by
  cases r <;> rfl

/-- Settles O42: the key is written and Running entered; resume One sets the budget of one more instruction. -/
theorem keyResumesABlockedRead : Obligations.KeyResumesABlockedRead := by
  intro s rest k a r hs hm
  have hstep := step_of_onInput hs (State.onKey_of_blocked (s := { s with schedule := rest }) k hm)
  refine ⟨_, hstep, State.wordAt_write s a.toNat k, ?_, ?_⟩
  · rw [← State.resumeBudget_eq_ite]
    rfl
  · rintro rfl i t later rfl hpc hi hx ht
    rw [core_run_succ hstep 2]
    exact core_run_oneMore rfl rfl rfl hpc hi hx ht

/-! ### The trace and the queue along every transition -/

/-- R162: the reaction to an event outputs at most once. -/
theorem State.react_trace_cases (s : State) (ev : Event) :
    (s.react ev).trace = s.trace ∨ ∃ o, (s.react ev).trace = s.trace ++ [o] := by
  cases ev with
  | none => exact .inl rfl
  | keyboard a =>
    rcases s.reactKeyboard_cases a with ⟨k, rest, -, heq⟩ | ⟨-, heq⟩
    · rw [State.react, heq]; exact .inl rfl
    · rw [State.react, heq]; exact .inr ⟨_, rfl⟩
  | _ => exact .inr ⟨_, rfl⟩

theorem State.execStep_trace {s t : State} (h : s.execStep = .next t) :
    t.trace = s.trace ∨ ∃ o, t.trace = s.trace ++ [o] := by
  rcases State.execStep_cases h with ⟨x, rfl | rfl⟩ | ⟨-, i, -, m, -, -, rfl⟩
  · exact .inr ⟨_, rfl⟩
  · exact .inr ⟨_, rfl⟩
  · exact State.react_trace_cases _ _

/-- R168, R169: the queue loses its head to a READ's address, or is kept. -/
theorem State.react_queue_cases (s : State) (ev : Event) :
    (s.react ev).queue = s.queue ∨
    ∃ k a, ev = .keyboard a ∧ s.queue = k :: (s.react ev).queue ∧ (s.react ev).at a = k := by
  cases ev with
  | keyboard a =>
    rcases s.reactKeyboard_cases a with ⟨k, rest, hq, heq⟩ | ⟨-, heq⟩
    · rw [State.react, heq]
      exact .inr ⟨k, a, rfl, hq, (Memory.read_write s.mem a.toNat a.toNat k).trans (if_pos rfl)⟩
    · rw [State.react, heq]; exact .inl rfl
  | _ => exact .inl rfl

theorem State.execStep_queue {s t : State} (h : s.execStep = .next t) :
    t.queue = s.queue ∨
    ∃ k a, s.queue = k :: t.queue ∧ decode s.fetchWords = .ok (.read a) ∧ t.at a = k := by
  rcases State.execStep_cases h with ⟨x, rfl | rfl⟩ | ⟨-, i, hi, m, -, -, rfl⟩
  · exact .inl rfl
  · exact .inl rfl
  · rcases State.react_queue_cases (State.retire { s.latch s.fetchWords with mem := m }
        (nextPC (s.latch s.fetchWords) i)) (eventOf (s.latch s.fetchWords) i) with hq | ⟨k, a, hev, hq, hk⟩
    · exact .inl hq
    · obtain rfl := eq_read_of_eventOf hev
      exact .inr ⟨k, a, hq, hi, hk⟩

/-- R162, R177, R262: a host input keeps trace and queue, or queues a key, or performs the Init action, which empties
both (log 7). -/
theorem State.onInput_trace_queue_cases (s : State) (e : HostInput) :
    ((s.onInput e).trace = s.trace ∧ (s.onInput e).queue = s.queue) ∨
    (∃ k, e = .key k ∧ (∀ r a, s.mode ≠ .blocked r a) ∧ (s.onInput e).trace = s.trace ∧
      (s.onInput e).queue = queuePush s.queueCap s.queue k) ∨
    (s.performsInit e ∧ (s.onInput e).trace = [] ∧ (s.onInput e).queue = []) := by
  unfold State.onInput
  cases e with
  | start =>
    rcases s.onStart_cases with ⟨hm, h⟩ | ⟨r, a, -, h⟩ | ⟨-, h⟩
    · exact .inr (.inr ⟨.inr ⟨hm, .inl rfl⟩, by simp [h]⟩)
    · exact .inl (by simp [h])
    · exact .inl (by simp [h])
  | step =>
    rcases s.onStep_cases with ⟨hm, h⟩ | ⟨r, a, -, h⟩ | ⟨-, h⟩
    · exact .inr (.inr ⟨.inr ⟨hm, .inr rfl⟩, by simp [h]⟩)
    · exact .inl (by simp [h])
    · exact .inl (by simp [h])
  | reload => exact .inr (.inr ⟨.inl rfl, rfl, rfl⟩)
  | key k =>
    rcases s.onKey_cases k with ⟨r, a, -, h⟩ | ⟨hm, h⟩
    · exact .inl (by simp [h])
    · exact .inr (.inl ⟨k, rfl, hm, by simp [h]⟩)
  | tick => rcases s.onTick_cases with ⟨-, h⟩ | h <;> exact .inl (by simp [h])
  | loadText values => rcases s.loadText_cases values with h | ⟨ws, -, h⟩ <;> exact .inl (by simp [h])
  | loadBinary bytes =>
    rcases State.loadBinary_cases Config.byteOrder s bytes with h | ⟨ws, -, h⟩ <;> exact .inl (by simp [h])
  | save => rcases State.saveWith_cases Config.savePatchLive s with h | h <;> exact .inl (by simp [h])

/-- Settles O57, by the cases of a transition: the break and the executor step output at most once, and a host input
nothing. -/
theorem atMostOneOutputPerTransition : Obligations.AtMostOneOutputPerTransition := by
  intro s t hstep
  rcases step_cases hstep with ⟨rest, -, -, rfl⟩ | ⟨rest, -, -, -, rfl⟩ | ⟨rest, -, -, hx⟩ | ⟨e, rest, hs, rfl⟩
  · exact .inl rfl
  · exact .inr (.inl ⟨.paused, rfl⟩)
  · rcases State.execStep_trace hx with htrace | hout
    · exact .inl htrace
    · exact .inr (.inl hout)
  · rcases State.onInput_trace_queue_cases { s with schedule := rest } e with
      ⟨htrace, -⟩ | ⟨k, -, -, htrace, -⟩ | ⟨hinit, htrace, -⟩
    · exact .inl htrace
    · exact .inl htrace
    · exact .inr (.inr ⟨htrace, e, rest, hs, hinit⟩)

/-- Settles O59, by the cases of a transition: of the executor steps only a READ's touches the queue, and of the host
inputs a key's outside Blocked and those that perform the Init action. -/
theorem queueChangesOnlyInOrder : Obligations.QueueChangesOnlyInOrder := by
  intro s t hstep
  rcases step_cases hstep with ⟨rest, -, -, rfl⟩ | ⟨rest, -, -, -, rfl⟩ | ⟨rest, -, hen, hx⟩ | ⟨e, rest, hs, rfl⟩
  · exact .inl rfl
  · exact .inl rfl
  · rcases State.execStep_queue hx with hq | ⟨k, a, hq, hi, hk⟩
    · exact .inl hq
    · exact .inr (.inl ⟨k, a, hq, hen, hi, hk⟩)
  · rcases State.onInput_trace_queue_cases { s with schedule := rest } e with
      ⟨-, hq⟩ | ⟨k, rfl, hm, -, hq⟩ | ⟨hinit, -, hq⟩
    · exact .inl hq
    · refine .inr (.inr (.inl ⟨k, rest, hs, hm, ?_⟩))
      by_cases hlen : s.queue.length = s.queueCap
      · exact .inr ⟨hlen, hq.trans (queuePush_of_length_eq k hlen)⟩
      · exact .inl ⟨hlen, hq.trans (queuePush_of_length_ne k hlen)⟩
    · exact .inr (.inr (.inr ⟨hq, e, rest, hs, hinit⟩))

end Sys2Proof.Machine
end

section
/-! PROOFS. The host-interface family (spec/46_host_interface.md): the image loads, accepted or rejected (R211, R212),
the save with its resume patch (R213), and the way back from a saved image to a running program (R80, R261). -/

namespace Sys2Proof.Machine

/-! ### The text image -/

theorem textImageOk_iff (n : Nat) (values : List Nat) :
    textImageOk n values = true ↔ values.length ≤ n ∧ ∀ v ∈ values, v < 4294967296 := by
  simp [textImageOk]

/-- R211: integers that fit a word are the values of the words made of them. -/
theorem map_toNat_map_ofNat {values : List Nat} (h : ∀ v ∈ values, v < 4294967296) :
    (values.map (BitVec.ofNat 32)).map BitVec.toNat = values := by
  rw [List.map_map]
  exact (List.map_congr_left fun v hv => Nat.mod_eq_of_lt (h v hv)).trans values.map_id

theorem State.loadText_accepted {s : State} {values : List Nat} (h : textImageOk s.memSize values = true) :
    s.loadText values = { s with image := values.map (BitVec.ofNat 32) } :=
  if_pos h

theorem State.loadText_rejected {s : State} {values : List Nat} (h : ¬ textImageOk s.memSize values = true) :
    s.loadText values = s :=
  if_neg h

/-- Settles O45: the load is accepted exactly when the integers fit, and a fitting integer is its word's value. -/
theorem textImageBecomesImageOrIsRejected : Obligations.TextImageBecomesImageOrIsRejected := by
  refine fun s rest values hs => ⟨fun hlen hfit => ?_, fun hbad => ?_⟩
  · have hok : textImageOk s.memSize values = true := (textImageOk_iff _ _).mpr ⟨hlen, hfit⟩
    exact ⟨_, step_of_onInput hs (State.loadText_accepted (s := { s with schedule := rest }) hok),
      map_toNat_map_ofNat hfit, rfl⟩
  · have hno : ¬ textImageOk s.memSize values = true := by
      rw [textImageOk_iff]
      rintro ⟨hlen, hfit⟩
      rcases hbad with hlong | ⟨v, hv, hbig⟩
      · omega
      · exact absurd (hfit v hv) (Nat.not_lt.mpr hbig)
    exact step_of_onInput hs (State.loadText_rejected (s := { s with schedule := rest }) hno)

/-! ### The binary image -/

theorem binaryImageOk_iff (n : Nat) (bytes : List Byte) :
    binaryImageOk n bytes = true ↔ bytes.length % 4 = 0 ∧ bytes.length ≤ 4 * n := by
  simp [binaryImageOk]

theorem State.loadBinary_accepted {o : ByteOrder} {s : State} {bytes : List Byte} {ws : List Word}
    (h : binaryImageOk s.memSize bytes = true) (hws : wordsOfBytes o bytes = .some ws) :
    s.loadBinary o bytes = { s with image := ws } := by
  rw [State.loadBinary, if_pos h, hws]

theorem State.loadBinary_rejected (o : ByteOrder) {s : State} {bytes : List Byte}
    (h : ¬ binaryImageOk s.memSize bytes = true) : s.loadBinary o bytes = s :=
  if_neg h

/-- Settles O46: bytes in a multiple of 4 are the bytes of the words they group into. -/
theorem binaryImageBecomesImageOrIsRejected : Obligations.BinaryImageBecomesImageOrIsRejected := by
  refine fun s rest bytes hs => ⟨fun hmul hlen => ?_, fun hbad => ?_⟩
  · have hok : binaryImageOk s.memSize bytes = true := (binaryImageOk_iff _ _).mpr ⟨hmul, hlen⟩
    obtain ⟨ws, hws, hbytes, -⟩ :=
      bytesOfWords_wordsOfBytes Config.byteOrder (bytes.length / 4) bytes (by omega)
    exact ⟨_, step_of_onInput hs (State.loadBinary_accepted (s := { s with schedule := rest }) hok hws), hbytes, rfl⟩
  · have hno : ¬ binaryImageOk s.memSize bytes = true := by
      rw [binaryImageOk_iff]
      omega
    exact step_of_onInput hs (State.loadBinary_rejected _ (s := { s with schedule := rest }) hno)

/-! ### The save -/

/-- R213: the resume header is a JMP whose operand A is 2. -/
theorem State.hasResumeHeader_iff (s : State) : s.hasResumeHeader = true ↔ s.wordAt 0 = 1 ∧ s.wordAt 1 = 2 := by
  simp [State.hasResumeHeader]

theorem State.savedWord_eq_ite (s : State) (x : Nat) :
    s.savedWord x = if s.wordAt 0 = 1 ∧ s.wordAt 1 = 2 ∧ x = 2 then s.pc else s.wordAt x := by
  simp [State.savedWord, State.hasResumeHeader_iff, and_assoc]

@[simp] theorem State.savedImage_length (s : State) : s.savedImage.length = s.memSize := by
  simp [State.savedImage]

theorem State.savedImage_getElem? {s : State} {x : Nat} (hx : x < s.memSize) :
    s.savedImage[x]? = some (s.savedWord x) := by
  simp [State.savedImage, hx]

theorem State.saveWith_wordAt (live : Bool) (s : State) (x : Nat) :
    (s.saveWith live).wordAt x =
      if s.wordAt 0 = 1 ∧ s.wordAt 1 = 2 ∧ live = true ∧ x = 2 then s.pc else s.wordAt x := by
  by_cases hpatch : s.hasResumeHeader = true ∧ live = true
  · obtain ⟨hheader, rfl⟩ := hpatch
    obtain ⟨h0, h1⟩ := s.hasResumeHeader_iff.mp hheader
    have hsave : s.saveWith true = { s with mem := s.mem.write 2 s.pc } := by simp [State.saveWith, hheader]
    rw [hsave, State.wordAt_write]
    simp [h0, h1]
  · have hsave : s.saveWith live = s := if_neg (by simpa using hpatch)
    rw [hsave, if_neg]
    rintro ⟨h0, h1, hlive, -⟩
    exact hpatch ⟨s.hasResumeHeader_iff.mpr ⟨h0, h1⟩, hlive⟩

/-- R213: a save changes nothing but Memory. -/
theorem State.saveWith_frame (live : Bool) (s : State) : s.saveWith live = { s with mem := (s.saveWith live).mem } := by
  rcases State.saveWith_cases live s with h | h <;> rw [h]

/-- Settles O47: the saved image and the live patch, word by word. -/
theorem savePatchesTheResumeHeader : Obligations.SavePatchesTheResumeHeader := by
  refine fun s rest hs => ⟨s.savedImage_length, fun x hx => ?_, _, step_of_host hs, fun x => ?_, ?_⟩
  · rw [State.savedImage_getElem? hx, State.savedWord_eq_ite]
  · exact State.saveWith_wordAt Config.savePatchLive { s with schedule := rest } x
  · exact State.saveWith_frame Config.savePatchLive { s with schedule := rest }

/-! ### From a saved image back to Memory -/

/-- R212, R213: a saved image is an image that fits, and loading it makes IMAGE the saved words. -/
theorem State.loadBinary_savedBytes {s u : State} (o : ByteOrder) (hN : u.memSize = s.memSize) :
    u.loadBinary o (s.savedBytes o) = { u with image := s.savedImage } := by
  have hlen : (s.savedBytes o).length = 4 * s.memSize := by
    rw [State.savedBytes, bytesOfWords_length, State.savedImage_length]
  have hok : binaryImageOk u.memSize (s.savedBytes o) = true := (binaryImageOk_iff _ _).mpr (by omega)
  exact State.loadBinary_accepted hok (wordsOfBytes_bytesOfWords o s.savedImage)

/-- R261: once IMAGE is a saved image, the Init action brings the saved words back. -/
theorem State.initAction_wordAt_of_savedImage {s t : State} (himage : t.image = s.savedImage) {x : Nat}
    (hx : x < s.memSize) : t.initAction.wordAt x = s.savedWord x := by
  rw [State.initAction_wordAt, himage, List.getD_eq_getElem?_getD, State.savedImage_getElem? hx, Option.getD_some]

/-- Settles O48: the load makes IMAGE the saved image, and the Init action places it. -/
theorem savedImageReloads : Obligations.SavedImageReloads := by
  intro s u o hN x hx
  rw [State.loadBinary_savedBytes o hN]
  exact State.initAction_wordAt_of_savedImage rfl hx

/-! ### A saved program resumes -/

/-- The running state that the load of an image, `reload` and `start` lead to. -/
def State.startedOn (u : State) (image : List Word) : State :=
  State.runWith (State.initAction { u with image := image, schedule := [] }) .unlimited

/-- R172, R212, R261: the three host inputs before the resumed program's first instruction. -/
theorem core_run_load_reload_start {s u : State} (hN : u.memSize = s.memSize)
    (hs : u.schedule = [.host (.loadBinary (s.savedBytes Config.byteOrder)), .host .reload, .host .start]) (k : Nat) :
    Sys2Proof.core.run (k + 3) u = Sys2Proof.core.run k (u.startedOn s.savedImage) := by
  have hload := step_of_onInput hs (State.loadBinary_savedBytes
    (u := { u with schedule := [.host .reload, .host .start] }) Config.byteOrder hN)
  rw [core_run_succ hload, core_run_succ (step_of_host rfl), core_run_succ (step_of_host rfl)]
  rfl

/-- R80: the first fetch finds JMP 2, with the saved PC in the word it jumps through. -/
theorem fetchWords_startedOn_savedImage {s u : State} (hheader : s.hasResumeHeader = true) (hN : 4 ≤ s.memSize) :
    (u.startedOn s.savedImage).fetchWords = ⟨1, 2, s.pc, s.wordAt 3⟩ := by
  obtain ⟨h0, h1⟩ := s.hasResumeHeader_iff.mp hheader
  have hword {x : Nat} (hx : x < 4) : (u.startedOn s.savedImage).wordAt x = s.savedWord x :=
    State.initAction_wordAt_of_savedImage rfl (Nat.lt_of_lt_of_le hx hN)
  have hpc : (u.startedOn s.savedImage).pc.toNat = 0 := rfl
  simp only [State.fetchWords, hpc, hword, Nat.reduceAdd, Nat.reduceLT]
  simp [State.savedWord_eq_ite, h0, h1]

theorem State.startedOn_execEnabled (u : State) (image : List Word) : (u.startedOn image).execEnabled :=
  ⟨rfl, fun _ hfinite => nomatch hfinite⟩

/-- R80, R112: the header's JMP 2 retires at the saved PC. -/
theorem step_startedOn_savedImage {s u : State} (hheader : s.hasResumeHeader = true) (hN : 4 ≤ s.memSize)
    (hpc : s.pc.toNat % 4 = 0) (hsize : u.memSize = s.memSize) :
    step (u.startedOn s.savedImage) = .next (((u.startedOn s.savedImage).fetched []).retire s.pc) := by
  have hwords := fetchWords_startedOn_savedImage (u := u) hheader hN
  have hdecode : decode (u.startedOn s.savedImage).fetchWords = .ok (.jmp 2) := by rw [hwords]; rfl
  have hfetch : (u.startedOn s.savedImage).pc.toNat + 3 < (u.startedOn s.savedImage).memSize := by
    change 0 + 3 < u.memSize
    omega
  have hword : ((u.startedOn s.savedImage).fetched []).hasWord 2 := Nat.lt_of_succ_lt hfetch
  have hat : ((u.startedOn s.savedImage).fetched []).at 2 = s.pc := congrArg InstrWords.b hwords
  rw [stepRunsTheDecodedInstruction _ [] _ (.inl ⟨rfl, rfl⟩) (u.startedOn_execEnabled _) hfetch hdecode,
    exec_jmp_retires hword (by rwa [hat]), hat]

/-- Settles O49: three host inputs bring the saved words into Memory and start them, and the one step of the block that
follows is the header's JMP. -/
theorem savedProgramResumesAtItsPc : Obligations.SavedProgramResumesAtItsPc := by
  intro s u hheader hN hpc hsize hs
  have hjmp := step_startedOn_savedImage hheader hN hpc hsize
  exact ⟨_, (core_run_load_reload_start hsize hs 1).trans (core_run_succ hjmp 0), rfl, rfl, rfl⟩

end Sys2Proof.Machine
end

section
/-! PROOFS. The reset family (spec/70_reset_and_hazards.md): the state the Init action leaves (R262), of which State.reset
is the case of the empty IMAGE, and the invariant of the block there. -/

namespace Sys2Proof.Machine

/-! ### The Init action -/

/-- Settles O40: `reload` performs the Init action, and in Halted so do `start` and `step` before they enter Running. -/
theorem initEmptiesTheTrace : Obligations.InitEmptiesTheTrace := by
  rintro s rest (hreload | ⟨hm, hstart | hstep⟩)
  · exact ⟨_, step_of_host hreload, State.initAction_trace { s with schedule := rest }⟩
  · exact ⟨_, step_of_onInput hstart (State.onStart_of_halted (s := { s with schedule := rest }) hm), rfl⟩
  · exact ⟨_, step_of_onInput hstep (State.onStep_of_halted (s := { s with schedule := rest }) hm), rfl⟩

/-- R262: Memory is IMAGE placed at 0; each other element, and the status view of it, has its reset value. -/
theorem State.initAction_atReset (s : State) : s.initAction.AtReset :=
  ⟨s.initAction_wordAt, s.initAction_pc, s.initAction_latches, s.initAction_stepCount, s.initAction_stepBudget,
    s.initAction_mode, s.initAction_queue, s.initAction_diag, s.initAction_trace, rfl, rfl, rfl, rfl, rfl, rfl⟩

/-! ### State.reset -/

/-- R262: State.reset is a state the Init action leaves. -/
theorem State.reset_initAction : State.reset.initAction = State.reset := rfl

/-- Settles O53: the Init action's own rule, and State.reset as what the Init action makes of itself. -/
theorem resetState : Obligations.ResetState :=
  ⟨State.initAction_atReset, State.reset_initAction ▸ State.initAction_atReset State.reset⟩

/-- R6, R8, R10: the default N and Q_CAP are in range, and the empty framebuffer fits. -/
theorem State.reset_paramsOk : paramsOk State.reset.memSize State.reset.queueCap State.reset.frameBuffer = true :=
  (paramsOk_iff _ _ _).mpr (by decide)

/-- Settles O54, clause by clause: Memory, queue and IMAGE are empty, and Mode is Init with the diagnostic clear. -/
theorem resetMeetsTheInvariant : Obligations.ResetMeetsTheInvariant where
  memWf := rfl
  memWithin := rfl
  pcAligned := rfl
  queueBounded := Nat.zero_le _
  params := State.reset_paramsOk
  imageFits := decide_eq_true (Nat.zero_le _)
  blockedOk := nofun
  diagOk := ⟨fun _ => nofun, fun _ => rfl⟩
  budgetOk := nofun

end Sys2Proof.Machine
end
